-- ==== Sys2Proof/Word.lean ====
section
/-! DEFINITION. The word widths of the unit and the sizes that follow from them (spec/00_scope.md R5, spec/30_encoding.md R61). -/

namespace Sys2Proof

/-- `W`, the width of a buffer word: 32 or 64 bits, fixed when the unit is built (R5). -/
inductive Width where
  /-- `W = 32`, the configuration the source documents in full. -/
  | w32
  /-- `W = 64`. -/
  | w64
  deriving DecidableEq, Repr

/-- The number `W` itself. -/
def Width.bits : Width → Nat
  | .w32 => 32
  | .w64 => 64

/-- How many bytes of the model's byte list hold one word (log 3). -/
def Width.bytes : Width → Nat
  | .w32 => 4
  | .w64 => 8

/-- One byte of the model's memory list. -/
abbrev Byte := BitVec 8

/-- A command packet: one 128-bit value, bit 0 least significant (R61). -/
abbrev Packet := BitVec 128

end Sys2Proof
end

