-- ==== Sys2Proof/Syntax.lean ====
section
/-! DEFINITION. The twelve commands (spec/30_encoding.md R64), operands as the natural numbers the fields hold (R62). -/

namespace Sys2Proof

/-- One constructor for each row of spec/opcode_table.json, operands in the order of the assembler syntax (R67). -/
inductive Instr where
  /-- SETBIT `i` (R81). -/
  | setbit (i : Nat)
  /-- RESETBIT `i` (R82). -/
  | resetbit (i : Nat)
  /-- TESTBIT `i` (R83). -/
  | testbit (i : Nat)
  /-- GETBLOCK `i, len` (R91). -/
  | getblock (i len : Nat)
  /-- SETBLOCK `i, len, value` (R93). -/
  | setblock (i len value : Nat)
  /-- CONSTRUCT `n, tau` (R102). -/
  | construct (n tau : Nat)
  /-- RELEASE (R103). -/
  | release
  /-- AGET `index` (R104). -/
  | aget (index : Nat)
  /-- ASET `index, value` (R105). -/
  | aset (index value : Nat)
  /-- GETLEN (R106). -/
  | getlen
  /-- GETTAU (R107). -/
  | gettau
  /-- STATUS (R116). -/
  | status
  deriving DecidableEq, Repr

end Sys2Proof
end

