-- ==== Sys2Proof/WellFormed.lean ====
section
/-! DEFINITION. When a command can be written as a packet: every operand fits its field (spec/30_encoding.md R61, R67). -/

namespace Sys2Proof

/-- An operand of field OFF: 32 bits. -/
abbrev fitsOff (x : Nat) : Prop := x < 2 ^ 32

/-- An operand of field LEN: 8 bits. -/
abbrev fitsLen (x : Nat) : Prop := x < 2 ^ 8

/-- An operand of field VAL: 64 bits. -/
abbrev fitsVal (x : Nat) : Prop := x < 2 ^ 64

/-- The operand ranges the assembler accepts (R67). Values that fault when executed are well formed. -/
def Instr.wellFormed (i : Instr) : Bool :=
  match i with
  | .setbit i => decide (fitsOff i)
  | .resetbit i => decide (fitsOff i)
  | .testbit i => decide (fitsOff i)
  | .getblock i len => decide (fitsOff i) && decide (fitsLen len)
  | .setblock i len value => decide (fitsOff i) && decide (fitsLen len) && decide (fitsVal value)
  | .construct n tau => decide (fitsOff n) && decide (fitsLen tau)
  | .release => true
  | .aget index => decide (fitsOff index)
  | .aset index value => decide (fitsOff index) && decide (fitsVal value)
  | .getlen => true
  | .gettau => true
  | .status => true

/-- Every operand of the command fits its field. -/
abbrev Instr.WellFormed (i : Instr) : Prop := i.wellFormed = true

end Sys2Proof
end

