-- ==== Sys2Proof/Decode.lean ====
section
/-! DEFINITION. The command format: packet fields, opcodes, the total decoder and the encoder (spec/30_encoding.md R61, R64, R65, R66). -/

namespace Sys2Proof

/-- `OPC = C[7:0]` (R61). -/
def Packet.opc (c : Packet) : BitVec 8 := c.extractLsb' 0 8

/-- `LEN = C[15:8]` (R61). -/
def Packet.len (c : Packet) : BitVec 8 := c.extractLsb' 8 8

/-- `RSV = C[31:16]` (R61). -/
def Packet.rsv (c : Packet) : BitVec 16 := c.extractLsb' 16 16

/-- `OFF = C[63:32]` (R61). -/
def Packet.off (c : Packet) : BitVec 32 := c.extractLsb' 32 32

/-- `VAL = C[127:64]` (R61). -/
def Packet.val (c : Packet) : BitVec 64 := c.extractLsb' 64 64

/-- The packet with the given fields: `C = VAL || OFF || RSV || LEN || OPC` (R61), RSV zero. -/
def Packet.ofFields (val : BitVec 64) (off : BitVec 32) (len opc : BitVec 8) : Packet :=
  (val ++ off ++ 0#16 ++ len ++ opc).setWidth 128

/-- The opcode of a command (R64). -/
def Instr.opcode (i : Instr) : BitVec 8 :=
  match i with
  | .setbit _ => 0x01
  | .resetbit _ => 0x02
  | .testbit _ => 0x03
  | .getblock _ _ => 0x04
  | .setblock _ _ _ => 0x05
  | .construct _ _ => 0x08
  | .release => 0x09
  | .aget _ => 0x0A
  | .aset _ _ => 0x0B
  | .getlen => 0x0C
  | .gettau => 0x0D
  | .status => 0x0E

/-- Why a packet is no command (R65). All of them are the one fault IllegalCommand. -/
inductive Reject where
  /-- OPC is none of the twelve opcodes (R65 (a), R66). -/
  | opcode
  /-- RSV is not 0 (R65 (b)). -/
  | reserved
  /-- LEN is not 0 where R64 says it must be (R65 (c)). -/
  | lenNotZero
  /-- OFF is not 0 where R64 says it must be (R65 (c)). -/
  | offNotZero
  /-- VAL is not 0 where R64 says it must be (R65 (c)). -/
  | valNotZero
  deriving DecidableEq, Repr

/-- RSV must be 0 in every command (R65 (b)). -/
def Packet.needRsv (c : Packet) (r : Except Reject Instr) : Except Reject Instr :=
  if c.rsv = 0 then r else .error .reserved

/-- LEN must be 0 (R65 (c)). -/
def Packet.needLen (c : Packet) (r : Except Reject Instr) : Except Reject Instr :=
  if c.len = 0 then r else .error .lenNotZero

/-- OFF must be 0 (R65 (c)). -/
def Packet.needOff (c : Packet) (r : Except Reject Instr) : Except Reject Instr :=
  if c.off = 0 then r else .error .offNotZero

/-- VAL must be 0 (R65 (c)). -/
def Packet.needVal (c : Packet) (r : Except Reject Instr) : Except Reject Instr :=
  if c.val = 0 then r else .error .valNotZero

/-- The command of a packet whose RSV is 0: the rows of R64, each with its must-be-zero fields. -/
def Packet.decodeFields (c : Packet) : Except Reject Instr :=
  if c.opc = 0x01 then c.needLen (c.needVal (.ok (.setbit c.off.toNat)))
  else if c.opc = 0x02 then c.needLen (c.needVal (.ok (.resetbit c.off.toNat)))
  else if c.opc = 0x03 then c.needLen (c.needVal (.ok (.testbit c.off.toNat)))
  else if c.opc = 0x04 then c.needVal (.ok (.getblock c.off.toNat c.len.toNat))
  else if c.opc = 0x05 then .ok (.setblock c.off.toNat c.len.toNat c.val.toNat)
  else if c.opc = 0x08 then c.needVal (.ok (.construct c.off.toNat c.len.toNat))
  else if c.opc = 0x09 then c.needLen (c.needOff (c.needVal (.ok .release)))
  else if c.opc = 0x0A then c.needLen (c.needVal (.ok (.aget c.off.toNat)))
  else if c.opc = 0x0B then c.needLen (.ok (.aset c.off.toNat c.val.toNat))
  else if c.opc = 0x0C then c.needLen (c.needOff (c.needVal (.ok .getlen)))
  else if c.opc = 0x0D then c.needLen (c.needOff (c.needVal (.ok .gettau)))
  else if c.opc = 0x0E then c.needLen (c.needOff (c.needVal (.ok .status)))
  else .error .opcode

/-- Decoding: total, and a function of the packet alone (R65). -/
def decode (c : Packet) : Except Reject Instr := c.needRsv c.decodeFields

/-- The packet of a well-formed command (R61, R64, R67); unnamed fields are 0. -/
def encode (i : Instr) : Packet :=
  match i with
  | .setbit i => Packet.ofFields 0 (BitVec.ofNat 32 i) 0 0x01
  | .resetbit i => Packet.ofFields 0 (BitVec.ofNat 32 i) 0 0x02
  | .testbit i => Packet.ofFields 0 (BitVec.ofNat 32 i) 0 0x03
  | .getblock i len => Packet.ofFields 0 (BitVec.ofNat 32 i) (BitVec.ofNat 8 len) 0x04
  | .setblock i len value => Packet.ofFields (BitVec.ofNat 64 value) (BitVec.ofNat 32 i) (BitVec.ofNat 8 len) 0x05
  | .construct n tau => Packet.ofFields 0 (BitVec.ofNat 32 n) (BitVec.ofNat 8 tau) 0x08
  | .release => Packet.ofFields 0 0 0 0x09
  | .aget index => Packet.ofFields 0 (BitVec.ofNat 32 index) 0 0x0A
  | .aset index value => Packet.ofFields (BitVec.ofNat 64 value) (BitVec.ofNat 32 index) 0 0x0B
  | .getlen => Packet.ofFields 0 0 0 0x0C
  | .gettau => Packet.ofFields 0 0 0 0x0D
  | .status => Packet.ofFields 0 0 0 0x0E

/-- One row of spec/opcode_table.json: a packet is the row's command exactly when `C & mask = match` (R65). -/
structure TableRow where
  mnemonic : String
  pattern : Packet
  mask : Packet
  deriving DecidableEq, Repr

/-- The rows of spec/opcode_table.json, `match` and `mask` copied from it. -/
def tableRows : List TableRow :=
  [ { mnemonic := "SETBIT", pattern := 0x01, mask := 0xFFFFFFFFFFFFFFFF00000000FFFFFFFF },
    { mnemonic := "RESETBIT", pattern := 0x02, mask := 0xFFFFFFFFFFFFFFFF00000000FFFFFFFF },
    { mnemonic := "TESTBIT", pattern := 0x03, mask := 0xFFFFFFFFFFFFFFFF00000000FFFFFFFF },
    { mnemonic := "GETBLOCK", pattern := 0x04, mask := 0xFFFFFFFFFFFFFFFF00000000FFFF00FF },
    { mnemonic := "SETBLOCK", pattern := 0x05, mask := 0x000000000000000000000000FFFF00FF },
    { mnemonic := "CONSTRUCT", pattern := 0x08, mask := 0xFFFFFFFFFFFFFFFF00000000FFFF00FF },
    { mnemonic := "RELEASE", pattern := 0x09, mask := 0xFFFFFFFFFFFFFFFFFFFFFFFFFFFFFFFF },
    { mnemonic := "AGET", pattern := 0x0A, mask := 0xFFFFFFFFFFFFFFFF00000000FFFFFFFF },
    { mnemonic := "ASET", pattern := 0x0B, mask := 0x000000000000000000000000FFFFFFFF },
    { mnemonic := "GETLEN", pattern := 0x0C, mask := 0xFFFFFFFFFFFFFFFFFFFFFFFFFFFFFFFF },
    { mnemonic := "GETTAU", pattern := 0x0D, mask := 0xFFFFFFFFFFFFFFFFFFFFFFFFFFFFFFFF },
    { mnemonic := "STATUS", pattern := 0x0E, mask := 0xFFFFFFFFFFFFFFFFFFFFFFFFFFFFFFFF } ]

/-- The table's test `C & mask = match`. -/
def TableRow.hits (r : TableRow) (c : Packet) : Bool := c &&& r.mask == r.pattern

/-- The mnemonic of a command, as spec/opcode_table.json spells it. -/
def Instr.mnemonic (i : Instr) : String :=
  match i with
  | .setbit _ => "SETBIT"
  | .resetbit _ => "RESETBIT"
  | .testbit _ => "TESTBIT"
  | .getblock _ _ => "GETBLOCK"
  | .setblock _ _ _ => "SETBLOCK"
  | .construct _ _ => "CONSTRUCT"
  | .release => "RELEASE"
  | .aget _ => "AGET"
  | .aset _ _ => "ASET"
  | .getlen => "GETLEN"
  | .gettau => "GETTAU"
  | .status => "STATUS"

/-- The command in a packet whose low `nbits` bits are `w` and whose other bits are 0 (numbered as R61 numbers them). -/
def decodeTableWord (nbits w : Nat) : Option Instr :=
  match decode (BitVec.ofNat 128 (w % 2 ^ nbits)) with
  | .ok i => some i
  | .error _ => none

end Sys2Proof
end

