-- ==== Sys2Proof/Config.lean ====
section
/-! DEFINITION. What is fixed when a unit is built: `W` and `MAXWORDS` (spec/00_scope.md R5, R6, R7). The spec leaves both open; it leaves no free value. -/

namespace Sys2Proof

/-- The implementation parameters of one unit. They are no state (R32) and no step changes them. -/
structure Params where
  /-- `W` (R5); also `TAU_MAX`, the largest element width (R7). -/
  width : Width
  /-- `MAXWORDS`, the largest number of words a CONSTRUCT may allocate (R6). -/
  maxWords : Nat
  deriving DecidableEq, Repr

/-- The constraint of R6: `1 <= MAXWORDS` and `MAXWORDS * W <= 2^32`. -/
abbrev Params.legal (p : Params) : Prop :=
  1 ≤ p.maxWords ∧ p.maxWords * p.width.bits ≤ 2 ^ 32

/-- DESIGN CHOICE (log 2): the parameters that `State.reset` is written with, those of the spec's `W = 32` vectors. -/
def Params.documented : Params := { width := .w32, maxWords := 16 }

end Sys2Proof
end

