-- ==== Sys2Proof/Machine/Operands.lean ====
section
/-! DEFINITION. Operand forms: bit offsets, blocks, elements, buffer sizing, and arithmetic inside a word of `W` bits (spec/00_scope.md R9, R10, R11; spec/41_block_ops.md R90; spec/42_packed_array.md R100, R101). -/

namespace Sys2Proof.Machine

/-- `k = i div W`, the word that holds stream bit `i` (R42, R80, R90). -/
def wordIndex (w : Width) (i : Nat) : Nat := i / w.bits

/-- `i mod W`, the position of stream bit `i` in its word (R42): `b` of R80, `s` of R90. -/
def bitPos (w : Width) (i : Nat) : Nat := i % w.bits

/-- `mask(len)` for `1 <= len <= W`, by the two arms of R10, so that nothing is shifted by `W` (R11). -/
def mask (w : Width) (len : Nat) : Nat :=
  if len = w.bits then 2 ^ w.bits - 1 else (1 <<< len) - 1

/-- `(a << s) mod 2^W` (R9). -/
def shlWord (w : Width) (a s : Nat) : Nat := (a <<< s) % 2 ^ w.bits

/-- `~a` inside a word: `(2^W - 1) - a` (R9). -/
def notWord (w : Width) (a : Nat) : Nat := (2 ^ w.bits - 1) - a

/-- A block length or element width is legal: `1 <= len <= W` (R7, R90). -/
abbrev legalLen (w : Width) (len : Nat) : Prop := 1 ≤ len ∧ len ≤ w.bits

/-- The block of `len` bits at offset `i` straddles a word boundary: `s + len > W` (R90). -/
abbrev straddles (w : Width) (i len : Nat) : Prop := w.bits < bitPos w i + len

/-- The bit offset of an element: `index * TAUR` (R100). -/
def elementOffset (tau index : Nat) : Nat := index * tau

/-- `ceil(a / b)` (R9). -/
def ceilDiv (a b : Nat) : Nat := (a + b - 1) / b

/-- The words of a Packed Array of `n` elements of `tau` bits: `ceil(n * tau / W) + 1` (R101). -/
def bufferWords (w : Width) (n tau : Nat) : Nat := ceilDiv (n * tau) w.bits + 1

/-- A byte holds a bit of a word that a block write at offset `i` of `len` bits rewrites (R45): its address lies in word
`k`, or in word `k+1` when the block straddles. -/
abbrev inStoredBytes (w : Width) (i len a : Nat) : Prop :=
  (wordIndex w i * w.bytes ≤ a ∧ a < wordIndex w i * w.bytes + w.bytes) ∨
  (straddles w i len ∧ (wordIndex w i + 1) * w.bytes ≤ a ∧ a < (wordIndex w i + 1) * w.bytes + w.bytes)

end Sys2Proof.Machine
end

