-- ==== Sys2Proof/Machine/State.lean ====
section
/-! DEFINITION. The state of the unit and of its three ports, and the state after reset (spec/10_state.md, spec/30_encoding.md R60, R63). -/

namespace Sys2Proof.Machine

/-- The contents of BUF as (address, byte) pairs: byte `a` holds stream bits `8a .. 8a+7`, bit 0 least significant.
DESIGN CHOICE (log 3): R43 recommends this order and leaves it unobservable. Addresses strictly rising, no zero byte; an
address that is not listed reads as 0 (log 4). -/
abbrev Memory := List Host.Cell

/-- A response packet (R63): `R = CODE || RES`. -/
structure Response where
  /-- `R[71:64]`: 0 OK, 1 .. 7 a fault, 8 Halted (R121). -/
  code : BitVec 8
  /-- `R[63:0]`. -/
  res : BitVec 64
  deriving DecidableEq, Repr

/-- What the host can do to the unit (R149). -/
inductive HostEvent where
  /-- A command packet on the command port. -/
  | command (packet : Packet)
  /-- The reset input, asserted between two commands (R141). -/
  | reset
  deriving DecidableEq, Repr

/-- The causes of a fault, in the order of their codes 1 .. 7 (R121). -/
inductive Cause where
  /-- Code 1: the packet is none of the twelve commands. -/
  | illegalCommand
  /-- Code 2: GETBLOCK or SETBLOCK with `LEN = 0` or `LEN > W`. -/
  | badLength
  /-- Code 3: SETBIT, RESETBIT or TESTBIT outside the buffer. -/
  | bitRange
  /-- Code 4: GETBLOCK or SETBLOCK not wholly inside the buffer. -/
  | blockRange
  /-- Code 5: AGET or ASET with an index of NUMEL or more. -/
  | indexRange
  /-- Code 6: CONSTRUCT with `LEN = 0` or `LEN > W`. -/
  | badTau
  /-- Code 7: CONSTRUCT needing more than `MAXWORDS` words. -/
  | capacity
  deriving DecidableEq, Repr

/-- The unit and its ports. -/
structure State where
  /-- `W` and `MAXWORDS` (R5, R6). DESIGN CHOICE (log 1): no state of the unit (R32), carried here and never changed. -/
  params : Params
  /-- BUF (R23). -/
  buf : Memory
  /-- TAUR, the element width (R24). -/
  taur : BitVec 7
  /-- NUMEL, the logical length (R25). -/
  numel : BitVec 32
  /-- NWORDS, the number of accessible words (R26). -/
  nwords : BitVec 32
  /-- FLT, the sticky fault flag; the unit is halted while it is set (R27). -/
  flt : Bool
  /-- CAUSE, the code of the first fault (R27). -/
  cause : BitVec 8
  /-- FOPC, the OPC field of the command that faulted (R27). -/
  fopc : BitVec 8
  /-- FOFF, the OFF field of the command that faulted (R27). -/
  foff : BitVec 32
  /-- The host's events not yet accepted, next first (R60, R151). DESIGN CHOICE (log 5): the model's own field. -/
  input : List HostEvent
  /-- The responses delivered, oldest first (R60, R63, R151). DESIGN CHOICE (log 6): the model's own field. -/
  responses : List Response
  deriving DecidableEq, Repr

/-- Where the spec gives the machine no meaning. The spec's own faults are not here: their entry is a next state (log 8). -/
inductive Fault where
  /-- Raised by `State.memRead` and `State.memWrite` for a word index of NWORDS or more, where the primitives are not
  defined (R41). Only AGET and ASET can reach it, and only in a state that breaks R28. Safe. -/
  | noSuchWord (k : Nat)
  /-- Raised by `State.readBlock` and `State.writeBlock` for a length outside `1 .. W`, where `mask` is not defined (R10).
  Only AGET and ASET can reach it, and only in a state that breaks R28. Safe. -/
  | maskUndefined (len : Nat)
  deriving DecidableEq, Repr

/-- Instructions without a meaning. -/
inductive Refusal where
  /-- Raised by an arm of `exec` for an instruction not modelled; no arm of this model does. Safe. -/
  | notModelled (mnemonic : String)
  deriving DecidableEq, Repr

/-- The reset state of a unit built with parameters `p` (R30): every register zero, no word accessible. -/
def State.resetOf (p : Params) : State :=
  { params := p
    buf := []
    taur := 0
    numel := 0
    nwords := 0
    flt := false
    cause := 0
    fopc := 0
    foff := 0
    input := []
    responses := [] }

/-- The machine right after reset (R30), with the parameters of log 2 and nothing on its ports. -/
def State.reset : State := State.resetOf Params.documented

end Sys2Proof.Machine
end

