-- ==== Sys2Proof/Machine/Ops.lean ====
section
/-! DEFINITION. The named operations: memory, blocks, responses, taking a fault, the halted unit, the reset input (spec/20_memory.md R41-R46; spec/41_block_ops.md R91, R93; spec/60_exceptions.md R125, R126). -/

namespace Sys2Proof.Machine

/-- What every meaning answers. -/
abbrev Result := Host.Outcome State Fault Refusal

/-- The byte at address `a`; an address that is not listed reads as 0 (R49, R102; log 4). -/
def Memory.read (m : Memory) (a : Nat) : Byte :=
  match m with
  | [] => 0
  | c :: t => if c.1 = a then c.2 else Memory.read t a

/-- The list without address `a`. -/
def Memory.erase (m : Memory) (a : Nat) : Memory := m.filter (fun c => c.1 != a)

/-- The list with a non-zero byte `v` at address `a`, in its place. -/
def Memory.insert (m : Memory) (a : Nat) (v : Byte) : Memory :=
  match m with
  | [] => [(a, v)]
  | c :: t =>
    if a < c.1 then (a, v) :: c :: t
    else if c.1 = a then (a, v) :: t
    else c :: Memory.insert t a v

/-- Writing a byte. Writing 0, what an unlisted address reads as, removes the entry. -/
def Memory.write (m : Memory) (a : Nat) (v : Byte) : Memory :=
  if v = 0 then m.erase a else m.insert a v

/-- The canonical form: addresses strictly rising, no byte equal to what an unlisted address reads as. -/
abbrev Memory.wf (m : Memory) : Prop :=
  m.Pairwise (fun c d => c.1 < d.1) ∧ ∀ c ∈ m, c.2 ≠ 0

/-- The number held in the `n` bytes from address `a`, the lowest address least significant (log 3). -/
def Memory.readBytes (m : Memory) (a n : Nat) : Nat :=
  match n with
  | 0 => 0
  | n + 1 => (m.read a).toNat + 256 * m.readBytes (a + 1) n

/-- The low `n` bytes of `v` stored from address `a`, the least significant at the lowest address (log 3). -/
def Memory.writeBytes (m : Memory) (a n v : Nat) : Memory :=
  match n with
  | 0 => m
  | n + 1 => (m.write a (BitVec.ofNat 8 v)).writeBytes (a + 1) n (v / 256)

/-- `BUF[k]` as a number below `2^W`. -/
def Memory.word (w : Width) (m : Memory) (k : Nat) : Nat := m.readBytes (k * w.bytes) w.bytes

/-- `BUF[k] <- v mod 2^W`. -/
def Memory.setWord (w : Width) (m : Memory) (k v : Nat) : Memory := m.writeBytes (k * w.bytes) w.bytes v

/-- Stream bit `n`: bit `n mod W` of word `n div W` (R42). -/
def Memory.bit (w : Width) (m : Memory) (n : Nat) : Bool := (m.word w (wordIndex w n)).testBit (bitPos w n)

/-- `Bits(BUF)` of the first `k` words: the sum of `BUF[j] * 2^(j*W)` (R42). -/
def Memory.bits (w : Width) (m : Memory) (k : Nat) : Nat :=
  match k with
  | 0 => 0
  | k + 1 => m.bits w k + m.word w k * 2 ^ (k * w.bits)

/-- `NWORDS * W`, the number of accessible stream bits. -/
def State.bitCount (s : State) : Nat := s.nwords.toNat * s.params.width.bits

/-- `BUF[k]`. -/
def State.word (s : State) (k : Nat) : Nat := s.buf.word s.params.width k

/-- Stream bit `n` of BUF. -/
def State.bit (s : State) (n : Nat) : Bool := s.buf.bit s.params.width n

/-- `Bits(BUF)` (R42). -/
def State.bits (s : State) : Nat := s.buf.bits s.params.width s.nwords.toNat

/-- MemRead(k, W), defined for `k < NWORDS` (R41). -/
def State.memRead (s : State) (k : Nat) : Except Fault Nat :=
  if k < s.nwords.toNat then .ok (s.word k) else .error (.noSuchWord k)

/-- MemWrite(k, W, v), defined for `k < NWORDS` (R41). -/
def State.memWrite (s : State) (k v : Nat) : Except Fault State :=
  if k < s.nwords.toNat then .ok { s with buf := s.buf.setWord s.params.width k v } else .error (.noSuchWord k)

/-- The value of the block of `len` bits at offset `i`: R91 from "k <- i div W" on. -/
def State.readBlock (s : State) (i len : Nat) : Except Fault Nat :=
  let w := s.params.width
  let k := wordIndex w i
  let sh := bitPos w i
  if legalLen w len then
    if straddles w i len then do
      let w0 ← s.memRead k
      let w1 ← s.memRead (k + 1)
      .ok (((w0 >>> sh) ||| shlWord w w1 (w.bits - sh)) &&& mask w len)
    else do
      let w0 ← s.memRead k
      .ok ((w0 >>> sh) &&& mask w len)
  else .error (.maskUndefined len)

/-- The writes of a block of `len` bits at offset `i`: R93 from "k <- i div W" on, the value truncated to `len` bits.
Both words are read before either is written; the low word is written first (unobservable, R46; log 7). -/
def State.writeBlock (s : State) (i len value : Nat) : Except Fault State :=
  let w := s.params.width
  let k := wordIndex w i
  let sh := bitPos w i
  let m := mask w len
  let v := value % 2 ^ len
  if legalLen w len then
    if straddles w i len then do
      let t := w.bits - sh
      let w0 ← s.memRead k
      let w1 ← s.memRead (k + 1)
      let s1 ← s.memWrite k ((w0 &&& notWord w (shlWord w m sh)) ||| shlWord w v sh)
      s1.memWrite (k + 1) ((w1 &&& notWord w (m >>> t)) ||| (v >>> t))
    else do
      let w0 ← s.memRead k
      s.memWrite k ((w0 &&& notWord w (m <<< sh)) ||| (v <<< sh))
  else .error (.maskUndefined len)

/-- The read-modify-write of the word that holds stream bit `i` (R81, R82). -/
def State.updateWord (s : State) (i : Nat) (f : Nat → Nat) : Except Fault State := do
  let w0 ← s.memRead (wordIndex s.params.width i)
  s.memWrite (wordIndex s.params.width i) (f w0)

/-- The code of a cause (R121). -/
def Cause.code (c : Cause) : BitVec 8 :=
  match c with
  | .illegalCommand => 1
  | .badLength => 2
  | .bitRange => 3
  | .blockRange => 4
  | .indexRange => 5
  | .badTau => 6
  | .capacity => 7

/-- CODE of a command that executed (R121). -/
def codeOk : BitVec 8 := 0

/-- CODE of a command that arrived while the unit was halted (R121). -/
def codeHalted : BitVec 8 := 8

/-- A response packet as one value: `R = CODE || RES` (R63). -/
def Response.packet (r : Response) : BitVec 72 := r.code ++ r.res

/-- `respond(code, res)`: one response goes out on the response port (R63). -/
def State.respond (s : State) (code : BitVec 8) (res : Nat) : State :=
  { s with responses := s.responses ++ [{ code := code, res := BitVec.ofNat 64 res }] }

/-- TAKING A FAULT (R125): FLT, CAUSE, FOPC and FOFF are written, the response carries the code, nothing else changes. -/
def State.raiseFault (s : State) (c : Cause) (opc : BitVec 8) (off : BitVec 32) : State :=
  State.respond { s with flt := true, cause := c.code, fopc := opc, foff := off } c.code 0

/-- A command `i` with OFF field `off` takes fault `c` (R122: FOPC is its opcode, FOFF its OFF field). -/
def State.faultOf (s : State) (c : Cause) (i : Instr) (off : Nat) : Result :=
  .next (s.raiseFault c i.opcode (BitVec.ofNat 32 off))

/-- The answer Halted: CODE 8, RES 0, no state changes (R126). -/
def State.answerHalted (s : State) : Result := .next (s.respond codeHalted 0)

/-- The common prologue of every command but STATUS (R126): a halted unit only answers Halted. -/
def State.unlessHalted (s : State) (run : Result) : Result :=
  if s.flt then s.answerHalted else run

/-- A packet that decodes to no command (R65, R126): IllegalCommand, or Halted on a halted unit. -/
def State.illegalPacket (s : State) (c : Packet) : Result :=
  s.unlessHalted (.next (s.raiseFault .illegalCommand c.opc c.off))

/-- A command that writes BUF and answers OK with RES 0. -/
def answerState (x : Except Fault State) : Result :=
  match x with
  | .ok s => .next (s.respond codeOk 0)
  | .error f => .fault f

/-- A command that answers OK with a value. -/
def State.answerValue (s : State) (x : Except Fault Nat) : Result :=
  match x with
  | .ok v => .next (s.respond codeOk v)
  | .error f => .fault f

/-- The reset input (R140): every register zero, the unit empty; what the host holds (its events, its responses) stays. -/
def State.resetInput (s : State) : State :=
  { State.resetOf s.params with input := s.input, responses := s.responses }

/-- The host's next event and the state with it taken off the port, if there is one. -/
def State.takeEvent (s : State) : Option (HostEvent × State) :=
  match s.input with
  | [] => none
  | e :: rest => some (e, { s with input := rest })

/-- Nothing on the ports: the unit waits and changes nothing (R140, R149). -/
def State.wait (s : State) : State := s

end Sys2Proof.Machine
end

