-- ==== Sys2Proof/Machine/BitOps.lean ====
section
/-! DEFINITION. SETBIT, RESETBIT, TESTBIT (spec/40_bit_ops.md). -/

namespace Sys2Proof.Machine

/-- SETBIT (R81). -/
def execSetbit (i : Nat) (s : State) : Result :=
  s.unlessHalted
    (if i < s.bitCount then
      answerState (s.updateWord i (fun w0 => w0 ||| (1 <<< bitPos s.params.width i)))
    else s.faultOf .bitRange (.setbit i) i)

/-- RESETBIT (R82). -/
def execResetbit (i : Nat) (s : State) : Result :=
  s.unlessHalted
    (if i < s.bitCount then
      answerState (s.updateWord i (fun w0 => w0 &&& notWord s.params.width (1 <<< bitPos s.params.width i)))
    else s.faultOf .bitRange (.resetbit i) i)

/-- The bit a TESTBIT returns: `(w >> b) & 1` (R83). -/
def State.readBit (s : State) (i : Nat) : Except Fault Nat := do
  let w0 ← s.memRead (wordIndex s.params.width i)
  .ok ((w0 >>> bitPos s.params.width i) &&& 1)

/-- TESTBIT (R83). -/
def execTestbit (i : Nat) (s : State) : Result :=
  s.unlessHalted
    (if i < s.bitCount then s.answerValue (s.readBit i)
    else s.faultOf .bitRange (.testbit i) i)

end Sys2Proof.Machine
end

