-- ==== Sys2Proof/Machine/BlockOps.lean ====
section
/-! DEFINITION. GETBLOCK, SETBLOCK (spec/41_block_ops.md). -/

namespace Sys2Proof.Machine

/-- GETBLOCK (R91): BadLength first, then BlockRange (R90, R123). -/
def execGetblock (i len : Nat) (s : State) : Result :=
  s.unlessHalted
    (if legalLen s.params.width len then
      if i + len ≤ s.bitCount then s.answerValue (s.readBlock i len)
      else s.faultOf .blockRange (.getblock i len) i
    else s.faultOf .badLength (.getblock i len) i)

/-- SETBLOCK (R93): BadLength first, then BlockRange (R90, R123). -/
def execSetblock (i len value : Nat) (s : State) : Result :=
  s.unlessHalted
    (if legalLen s.params.width len then
      if i + len ≤ s.bitCount then answerState (s.writeBlock i len value)
      else s.faultOf .blockRange (.setblock i len value) i
    else s.faultOf .badLength (.setblock i len value) i)

end Sys2Proof.Machine
end

