-- ==== Sys2Proof/Machine/PackedArray.lean ====
section
/-! DEFINITION. CONSTRUCT, RELEASE, AGET, ASET, GETLEN, GETTAU (spec/42_packed_array.md). -/

namespace Sys2Proof.Machine

/-- The unit with a new array of `n` elements of `tau` bits in `nw` words, all zero (R102). Nothing is listed, and an
unlisted byte reads as 0, so every word made accessible is zero (log 4). -/
def State.construct (s : State) (n tau nw : Nat) : State :=
  { s with nwords := BitVec.ofNat 32 nw, taur := BitVec.ofNat 7 tau, numel := BitVec.ofNat 32 n, buf := [] }

/-- CONSTRUCT (R102): BadTau first, then Capacity (R123). -/
def execConstruct (n tau : Nat) (s : State) : Result :=
  s.unlessHalted
    (if legalLen s.params.width tau then
      if bufferWords s.params.width n tau ≤ s.params.maxWords then
        answerState (.ok (s.construct n tau (bufferWords s.params.width n tau)))
      else s.faultOf .capacity (.construct n tau) n
    else s.faultOf .badTau (.construct n tau) n)

/-- RELEASE (R103): the unit is empty; no word is accessible and the old contents can never be read back. -/
def execRelease (s : State) : Result :=
  s.unlessHalted (answerState (.ok { s with nwords := 0, taur := 0, numel := 0, buf := [] }))

/-- AGET (R104): the index check, then the block of TAUR bits at `index * TAUR`. -/
def execAget (index : Nat) (s : State) : Result :=
  s.unlessHalted
    (if index < s.numel.toNat then
      s.answerValue (s.readBlock (elementOffset s.taur.toNat index) s.taur.toNat)
    else s.faultOf .indexRange (.aget index) index)

/-- ASET (R105): the index check, then the write of the block of TAUR bits at `index * TAUR`. -/
def execAset (index value : Nat) (s : State) : Result :=
  s.unlessHalted
    (if index < s.numel.toNat then
      answerState (s.writeBlock (elementOffset s.taur.toNat index) s.taur.toNat value)
    else s.faultOf .indexRange (.aset index value) index)

/-- GETLEN (R106). -/
def execGetlen (s : State) : Result := s.unlessHalted (s.answerValue (.ok s.numel.toNat))

/-- GETTAU (R107). -/
def execGettau (s : State) : Result := s.unlessHalted (s.answerValue (.ok s.taur.toNat))

end Sys2Proof.Machine
end

