-- ==== Sys2Proof/Machine/Flags.lean ====
section
/-! DEFINITION. The unit has no condition codes (spec/10_state.md R22); its one flag is FLT (R27), which with CAUSE, FOPC and FOFF makes the status word (spec/43_system.md R116). -/

namespace Sys2Proof.Machine

/-- The status word: `(FOFF << 32) | (FOPC << 16) | (CAUSE << 8) | FLT` (R116). -/
def State.statusWord (s : State) : Nat :=
  (s.foff.toNat <<< 32) ||| (s.fopc.toNat <<< 16) ||| (s.cause.toNat <<< 8) ||| s.flt.toNat

end Sys2Proof.Machine
end

