-- ==== Sys2Proof/Machine/System.lean ====
section
/-! DEFINITION. STATUS (spec/43_system.md). -/

namespace Sys2Proof.Machine

/-- STATUS (R116): the fault registers in one word, on a halted unit too (R126 exempts it). -/
def execStatus (s : State) : Result := s.answerValue (.ok s.statusWord)

end Sys2Proof.Machine
end

