-- ==== Sys2Proof/Machine/Dispatch.lean ====
section
/-! DEFINITION. One arm for each command. -/

namespace Sys2Proof.Machine

def exec (i : Instr) (s : State) : Host.Outcome State Fault Refusal :=
  match i with
  | .setbit off => Sys2Proof.Machine.execSetbit off s
  | .resetbit off => Sys2Proof.Machine.execResetbit off s
  | .testbit off => Sys2Proof.Machine.execTestbit off s
  | .getblock off len => Sys2Proof.Machine.execGetblock off len s
  | .setblock off len value => Sys2Proof.Machine.execSetblock off len value s
  | .construct n tau => Sys2Proof.Machine.execConstruct n tau s
  | .release => Sys2Proof.Machine.execRelease s
  | .aget index => Sys2Proof.Machine.execAget index s
  | .aset index value => Sys2Proof.Machine.execAset index value s
  | .getlen => Sys2Proof.Machine.execGetlen s
  | .gettau => Sys2Proof.Machine.execGettau s
  | .status => Sys2Proof.Machine.execStatus s

end Sys2Proof.Machine
end

