-- ==== Sys2Proof/Machine/HostPort.lean ====
section
/-! DEFINITION. What the unit does with one event of the host (spec/60_exceptions.md R126, spec/70_reset_and_hazards.md R140, R141, R149). -/

namespace Sys2Proof.Machine

/-- A command packet: decoded (R65); a command is executed by its rule, every other packet is illegal. The halted check of
R126 stands in the meanings and in `illegalPacket`, so a halted unit executes STATUS alone (log 9). -/
def runPacket (c : Packet) (s : State) : Result :=
  match decode c with
  | .ok i => exec i s
  | .error _ => s.illegalPacket c

/-- One event of the host, whole. -/
def runEvent (e : HostEvent) (s : State) : Result :=
  match e with
  | .command c => runPacket c s
  | .reset => .next s.resetInput

/-- The packet whose low `nbits` bits are those of `w`, placed first on the command port. -/
def State.placePacket (s : State) (nbits w : Nat) : State :=
  { s with input := .command (BitVec.ofNat 128 (w % 2 ^ nbits)) :: s.input }

end Sys2Proof.Machine
end

