-- ==== Sys2Proof/Machine/Step.lean ====
section
/-! DEFINITION. One step: the unit takes the host's next event, a command packet or the reset input, and completes it (spec/20_memory.md R46, R49; spec/70_reset_and_hazards.md R141, R151). -/

namespace Sys2Proof.Machine

/-- One step: the host's next event; with none pending the unit waits (log 5). -/
def step (s : State) : Host.Outcome State Fault Refusal :=
  match s.takeEvent with
  | none => .next s.wait
  | some (e, s') => runEvent e s'

/-- The state with one packet placed first on the command port, its bits above `nbits` zero: the next step runs it. -/
def State.withFetchWord (s : State) (nbits w : Nat) : State := s.placePacket nbits w

end Sys2Proof.Machine
end

