-- ==== Sys2Proof/Machine/Assembler.lean ====
section
/-! DEFINITION. The assembler: command lines, pseudo-commands and written responses (spec/30_encoding.md R67, R68). It adds nothing to the unit. -/

namespace Sys2Proof.Machine

/-- A line of assembler: a command (R67) or one of the six pseudo-commands (R68). -/
inductive AsmLine where
  /-- One of the twelve commands. -/
  | command (i : Instr)
  /-- GETWORD `k`: read word `k` whole. -/
  | getword (k : Nat)
  /-- SETWORD `k, value`: write word `k` whole. -/
  | setword (k value : Nat)
  /-- ISBITSET `i`: the Bitstring's name of TESTBIT. -/
  | isbitset (i : Nat)
  /-- GET2D `i, j, width`: a cell of a row-major array. -/
  | getCell (i j width : Nat)
  /-- SET2D `i, j, width, value`. -/
  | setCell (i j width value : Nat)
  /-- BITSTRING `size`. -/
  | bitstring (size : Nat)
  deriving DecidableEq, Repr

/-- The one command a line expands to (R68), computed exactly. -/
def AsmLine.expand (w : Width) (l : AsmLine) : Instr :=
  match l with
  | .command i => i
  | .getword k => .getblock (k * w.bits) w.bits
  | .setword k value => .setblock (k * w.bits) w.bits value
  | .isbitset i => .testbit i
  | .getCell i j width => .aget (j * width + i)
  | .setCell i j width value => .aset (j * width + i) value
  | .bitstring size => .construct size 1

/-- The packet of a line; a line with a value that does not fit its field is rejected (R67, R68). -/
def AsmLine.assemble (w : Width) (l : AsmLine) : Option Packet :=
  if (l.expand w).wellFormed then some (encode (l.expand w)) else none

/-- The sixteen digits of R67's hexadecimal numbers, each at the place of its value; the first ten are the decimal ones. -/
def upperDigits : List Char := "0123456789ABCDEF".toList

/-- The same digits in lower case; both spellings are accepted, DESIGN CHOICE (log 12). -/
def lowerDigits : List Char := "0123456789abcdef".toList

/-- The value of a digit: its place among the digits. -/
def digitValue (c : Char) : Option Nat := (upperDigits.idxOf? c).or (lowerDigits.idxOf? c)

/-- The number that digit values write in a base, most significant first; none where a value is no digit of the base. -/
def numberOf (base : Nat) (values : List Nat) : Option Nat :=
  if values.all (fun d => d < base) then some (values.foldl (fun n d => n * base + d) 0) else none

/-- A text of digits read as a number in a base. -/
def parseDigits (base : Nat) (text : List Char) : Option Nat := (text.mapM digitValue).bind (numberOf base)

/-- A number: decimal, or hexadecimal with `0x` (R67). -/
def parseNumber (cs : List Char) : Option Nat :=
  match cs with
  | [] => none
  | ['0', 'x'] => none
  | '0' :: 'x' :: t => parseDigits 16 t
  | cs => parseDigits 10 cs

/-- Blank characters inside a line, DESIGN CHOICE (log 12). -/
def isBlank (c : Char) : Bool := c == ' ' || c == '\t'

/-- A text without the blanks at its two ends. -/
def trimBlanks (cs : List Char) : List Char := ((cs.dropWhile isBlank).reverse.dropWhile isBlank).reverse

/-- The pieces of a text between the commas. -/
def splitCommas (cs : List Char) : List (List Char) :=
  match cs with
  | [] => [[]]
  | ',' :: t => [] :: splitCommas t
  | c :: t =>
    match splitCommas t with
    | [] => [[c]]
    | p :: ps => (c :: p) :: ps

/-- The operands after a mnemonic; none when nothing follows it. -/
def parseOperands (cs : List Char) : Option (List Nat) :=
  match trimBlanks cs with
  | [] => some []
  | cs => (splitCommas cs).mapM (fun p => parseNumber (trimBlanks p))

/-- The line of a mnemonic and its operands, in the order of R67 and R68. -/
def lineOf (mnemonic : List Char) (operands : List Nat) : Option AsmLine :=
  match mnemonic, operands with
  | ['S', 'E', 'T', 'B', 'I', 'T'], [i] => some (.command (.setbit i))
  | ['R', 'E', 'S', 'E', 'T', 'B', 'I', 'T'], [i] => some (.command (.resetbit i))
  | ['T', 'E', 'S', 'T', 'B', 'I', 'T'], [i] => some (.command (.testbit i))
  | ['G', 'E', 'T', 'B', 'L', 'O', 'C', 'K'], [i, len] => some (.command (.getblock i len))
  | ['S', 'E', 'T', 'B', 'L', 'O', 'C', 'K'], [i, len, value] => some (.command (.setblock i len value))
  | ['C', 'O', 'N', 'S', 'T', 'R', 'U', 'C', 'T'], [n, tau] => some (.command (.construct n tau))
  | ['R', 'E', 'L', 'E', 'A', 'S', 'E'], [] => some (.command .release)
  | ['A', 'G', 'E', 'T'], [i] => some (.command (.aget i))
  | ['A', 'S', 'E', 'T'], [i, value] => some (.command (.aset i value))
  | ['G', 'E', 'T', 'L', 'E', 'N'], [] => some (.command .getlen)
  | ['G', 'E', 'T', 'T', 'A', 'U'], [] => some (.command .gettau)
  | ['S', 'T', 'A', 'T', 'U', 'S'], [] => some (.command .status)
  | ['G', 'E', 'T', 'W', 'O', 'R', 'D'], [k] => some (.getword k)
  | ['S', 'E', 'T', 'W', 'O', 'R', 'D'], [k, value] => some (.setword k value)
  | ['I', 'S', 'B', 'I', 'T', 'S', 'E', 'T'], [i] => some (.isbitset i)
  | ['G', 'E', 'T', '2', 'D'], [i, j, width] => some (.getCell i j width)
  | ['S', 'E', 'T', '2', 'D'], [i, j, width, value] => some (.setCell i j width value)
  | ['B', 'I', 'T', 'S', 'T', 'R', 'I', 'N', 'G'], [size] => some (.bitstring size)
  | _, _ => none

/-- What one line of text is (R67): one command a line, `;` starts a comment. -/
inductive ParsedLine where
  /-- Nothing but blanks and a comment. -/
  | empty
  /-- A command or pseudo-command. -/
  | line (l : AsmLine)
  /-- Not a line of assembler. -/
  | bad
  deriving DecidableEq, Repr

/-- Reading one line of text (R67). -/
def parseLine (text : List Char) : ParsedLine :=
  match trimBlanks (text.takeWhile (fun c => c != ';')) with
  | [] => .empty
  | cs =>
    match parseOperands (cs.dropWhile (fun c => !isBlank c)) with
    | none => .bad
    | some ops =>
      match lineOf (cs.takeWhile (fun c => !isBlank c)) ops with
      | none => .bad
      | some l => .line l

/-- The name of a response code (R121); codes 9 .. 255 are never produced. -/
def codeName (code : BitVec 8) : Option String :=
  match code.toNat with
  | 0 => some "OK"
  | 1 => some "IllegalCommand"
  | 2 => some "BadLength"
  | 3 => some "BitRange"
  | 4 => some "BlockRange"
  | 5 => some "IndexRange"
  | 6 => some "BadTau"
  | 7 => some "Capacity"
  | 8 => some "Halted"
  | _ => none

/-- The commands that return a value (R63). -/
def returnsValue (i : Instr) : Bool :=
  match i with
  | .setbit _ => false
  | .resetbit _ => false
  | .testbit _ => true
  | .getblock _ _ => true
  | .setblock _ _ _ => false
  | .construct _ _ => false
  | .release => false
  | .aget _ => true
  | .aset _ _ => false
  | .getlen => true
  | .gettau => true
  | .status => true

/-- A written response (R67): `OK`, `OK value` for a command that returns one, or the fault's name. The value is written in
decimal, DESIGN CHOICE (log 12). -/
def Response.written (r : Response) (i : Instr) : Option String :=
  match codeName r.code with
  | none => none
  | some name => if r.code = codeOk ∧ returnsValue i then some (name ++ " " ++ toString r.res.toNat) else some name

end Sys2Proof.Machine
end

