-- ==== Sys2Proof/Safety.lean ====
section
/-! DEFINITION. What counts as a legal state and a safe run, in the terms the claims use (spec/10_state.md R28; spec/60_exceptions.md R120, R129; spec/70_reset_and_hazards.md R145, R151). -/

namespace Sys2Proof.Machine

/-- The invariants of R28, with the canonical form of the model's memory list. -/
structure State.Inv (s : State) : Prop where
  /-- The parameters are legal (R5, R6). -/
  legal : s.params.legal
  /-- R28 point 1. -/
  withinCapacity : s.nwords.toNat ≤ s.params.maxWords
  /-- R28 point 2. -/
  empty : s.nwords = 0 → s.taur = 0 ∧ s.numel = 0
  /-- R28 point 3. -/
  constructed : s.nwords ≠ 0 → legalLen s.params.width s.taur.toNat ∧
    s.nwords.toNat = bufferWords s.params.width s.numel.toNat s.taur.toNat
  /-- R28 point 4, running. -/
  running : s.flt = false → s.cause = 0 ∧ s.fopc = 0 ∧ s.foff = 0
  /-- R28 point 4, halted. -/
  halted : s.flt = true → 1 ≤ s.cause.toNat ∧ s.cause.toNat ≤ 7
  /-- The memory list is canonical (log 3). -/
  canonical : s.buf.wf
  /-- Nothing is listed beyond the accessible words (R23, R47). -/
  extent : ∀ c ∈ s.buf, c.1 < s.nwords.toNat * s.params.width.bytes

/-- The state with one more response on the response port and nothing else changed: what the claims compare with. -/
def State.withResponse (s : State) (code : BitVec 8) (res : BitVec 64) : State :=
  { s with responses := s.responses ++ [{ code := code, res := res }] }

/-- The state after fault entry (R125): the four fault registers written, the response (code, 0), nothing else changed. -/
def State.haltedBy (s : State) (code opc : BitVec 8) (off : BitVec 32) : State :=
  { s with
    flt := true
    cause := code
    fopc := opc
    foff := off
    responses := s.responses ++ [{ code := code, res := 0 }] }

/-- Nothing has gone wrong so far: the unit is not halted and every response was OK (R151). -/
structure State.Healthy (s : State) : Prop where
  notHalted : s.flt = false
  allOk : ∀ r ∈ s.responses, r.code = 0

/-- A halted unit has said so: some response it delivered carries a CODE other than 0 (R125, R151). -/
def State.ReportsFault (s : State) : Prop := s.flt = true → ∃ r ∈ s.responses, r.code ≠ 0

/-- The event is a command packet, which the unit owes one response; the reset input is owed none (R149). -/
def HostEvent.isCommand (e : HostEvent) : Bool :=
  match e with
  | .command _ => true
  | .reset => false

end Sys2Proof.Machine

namespace Sys2Proof

open Machine

/-- What software written to the source's contract keeps, with Capacity, which the contract cannot exclude (R129, R145). -/
def Instr.keepsContract (i : Instr) (s : State) : Prop :=
  match i with
  | .setbit i => i < s.bitCount
  | .resetbit i => i < s.bitCount
  | .testbit i => i < s.bitCount
  | .getblock i len => legalLen s.params.width len ∧ i + len ≤ s.bitCount
  | .setblock i len _ => legalLen s.params.width len ∧ i + len ≤ s.bitCount
  | .construct n tau => legalLen s.params.width tau ∧ bufferWords s.params.width n tau ≤ s.params.maxWords
  | .release => True
  | .aget index => index < s.numel.toNat
  | .aset index _ => index < s.numel.toNat
  | .getlen => True
  | .gettau => True
  | .status => True

/-- The five codec commands (R3 (a)): they know nothing of elements. -/
def Instr.isCodec (i : Instr) : Bool :=
  match i with
  | .setbit _ => true
  | .resetbit _ => true
  | .testbit _ => true
  | .getblock _ _ => true
  | .setblock _ _ _ => true
  | .construct _ _ => false
  | .release => false
  | .aget _ => false
  | .aset _ _ => false
  | .getlen => false
  | .gettau => false
  | .status => false

/-- The four read-modify-write commands (R46, R51). -/
def Instr.isWrite (i : Instr) : Bool :=
  match i with
  | .setbit _ => true
  | .resetbit _ => true
  | .testbit _ => false
  | .getblock _ _ => false
  | .setblock _ _ _ => true
  | .construct _ _ => false
  | .release => false
  | .aget _ => false
  | .aset _ _ => true
  | .getlen => false
  | .gettau => false
  | .status => false

end Sys2Proof
end

