-- ==== Sys2Proof/Certificates/Slice0/Obligations.lean ====
section
/-! DEFINITION. The statements about the unit, for the provers. Each docstring names the rule of spec/ it formalises. -/

open Sys2Proof Sys2Proof.Machine

/-! Encoding and decoding. -/

/-- R61, R64, R67: every well-formed command survives being written as a packet and decoded, at every operand value. -/
def Obligations.DecodeEncodeRoundTrip : Prop :=
  ∀ i : Instr, i.WellFormed → decode (encode i) = .ok i

/-- R65: a packet that decodes is the encoding of the command it decodes to, and that command is well formed. -/
def Obligations.DecodedPacketIsItsEncoding : Prop :=
  ∀ (c : Packet) (i : Instr), decode c = .ok i → i.WellFormed ∧ encode i = c

/-- R65: the decoder and the opcode table agree: a decoded packet hits exactly its row, a rejected one no row. -/
def Obligations.DecodeAgreesWithOpcodeTable : Prop :=
  ∀ c : Packet, (tableRows.filter (fun r => r.hits c)).map (fun r => r.mnemonic) =
    match decode c with
    | .ok i => [i.mnemonic]
    | .error _ => []

/-- R61, R67: words written from the packet format decode to the commands they stand for. -/
def Obligations.SpecWordsDecode : Prop :=
  decode 0x0000000000000000_0000003F_0000_00_02 = .ok (.resetbit 63) ∧
  decode 0x00000000000ABCDE_00000014_0000_14_05 = .ok (.setblock 20 20 0xABCDE) ∧
  decode 0x0000000000000000_00000004_0000_14_08 = .ok (.construct 4 20) ∧
  decode 0x00000000FFFABCDE_00000001_0000_00_0B = .ok (.aset 1 0xFFFABCDE) ∧
  decode 0x0000000000000000_00000000_0000_00_0E = .ok .status

/-- R66: every packet that hits no row of the opcode table faults with IllegalCommand on a running unit, recording its own
OPC and OFF bits; the all-zero and the all-ones packet hit no row. -/
def Obligations.IllegalPacketFaults : Prop :=
  (∀ (c : Packet) (rest : List HostEvent) (s : State), s.flt = false → s.input = .command c :: rest →
    (∀ r ∈ tableRows, c &&& r.mask ≠ r.pattern) →
    step s = .next ({ s with input := rest }.haltedBy 1 (c.extractLsb' 0 8) (c.extractLsb' 32 32))) ∧
  (∀ r ∈ tableRows, 0 &&& r.mask ≠ r.pattern) ∧
  (∀ r ∈ tableRows, BitVec.allOnes 128 &&& r.mask ≠ r.pattern)

/-! Steps and ports. -/

/-- R49, R126: a step whose next event is a packet that decodes to `i` takes the packet off the port and is `exec` of `i`. -/
def Obligations.StepRunsDecodedCommand : Prop :=
  ∀ (c : Packet) (rest : List HostEvent) (i : Instr) (s : State), s.input = .command c :: rest → decode c = .ok i →
    step s = exec i { s with input := rest }

/-- R49, R126, with the model's command port (DESIGN CHOICE, log 5): a packet that `withFetchWord` places first on the port
of any state, written by the encoder, is run by the very next step. -/
def Obligations.StepRunsPlacedPacket : Prop :=
  ∀ (i : Instr) (s : State), i.WellFormed → step (s.withFetchWord 128 (encode i).toNat) = exec i s

/-- The model's choice of log entry 5: with no event pending the unit waits and nothing changes. -/
def Obligations.StepWaitsWithNothingPending : Prop :=
  ∀ s : State, s.input = [] → step s = .next s

/-- R140: the reset input zeroes every register and empties the unit, in every state, halted or not; no word is accessible. -/
def Obligations.ResetInputEmptiesUnit : Prop :=
  ∀ (rest : List HostEvent) (s : State), s.input = .reset :: rest →
    ∃ t, step s = .next t ∧ t.nwords = 0 ∧ t.taur = 0 ∧ t.numel = 0 ∧ t.flt = false ∧ t.cause = 0 ∧ t.fopc = 0 ∧
      t.foff = 0 ∧ t.params = s.params ∧ t.input = rest ∧ t.responses = s.responses ∧
      (∀ k v, t.memRead k ≠ .ok v) ∧ (∀ k v u, t.memWrite k v ≠ .ok u)

/-- R30: the reset state of a unit with any parameters has every register zero and an empty buffer. -/
def Obligations.ResetStateIsZeroAndEmpty : Prop :=
  ∀ p : Params, (State.resetOf p).nwords = 0 ∧ (State.resetOf p).taur = 0 ∧ (State.resetOf p).numel = 0 ∧
    (State.resetOf p).flt = false ∧ (State.resetOf p).cause = 0 ∧ (State.resetOf p).fopc = 0 ∧
    (State.resetOf p).foff = 0 ∧ (∀ k v, (State.resetOf p).memRead k ≠ .ok v)

/-! The halted unit and fault entry. -/

/-- R126: the common prologue. A halted unit executes a well-formed STATUS and answers everything else Halted, no state
changing but the port; a running unit executes what it decodes and faults on the rest. -/
def Obligations.PrologueOfEveryCommand : Prop :=
  ∀ (c : Packet) (rest : List HostEvent) (s : State), s.input = .command c :: rest →
    (s.flt = true → decode c = .ok .status → step s = exec .status { s with input := rest }) ∧
    (s.flt = true → decode c ≠ .ok .status → step s = .next ({ s with input := rest }.withResponse 8 0)) ∧
    (s.flt = false → ∀ i, decode c = .ok i → step s = exec i { s with input := rest }) ∧
    (s.flt = false → ∀ e, decode c = .error e →
      step s = .next ({ s with input := rest }.haltedBy 1 (c.extractLsb' 0 8) (c.extractLsb' 32 32)))

/-- R127: no event but the reset input ends the halted state or changes any register or buffer byte of a halted unit. -/
def Obligations.OnlyResetLeavesHaltedState : Prop :=
  (∀ s t : State, s.flt = true → s.input.head? ≠ some .reset → step s = .next t →
    t = { s with input := t.input, responses := t.responses }) ∧
  (∀ (rest : List HostEvent) (s : State), s.flt = true → s.input = .reset :: rest →
    ∃ t, step s = .next t ∧ t.flt = false ∧ t.cause = 0 ∧ t.fopc = 0 ∧ t.foff = 0 ∧ t.nwords = 0)

/-- R63, R120, R124: every packet gets exactly one response, and one whose code is not 0 carries RES 0 and leaves BUF, TAUR,
NUMEL and NWORDS as they were. -/
def Obligations.OneResponsePerPacket : Prop :=
  ∀ (c : Packet) (rest : List HostEvent) (s t : State), s.input = .command c :: rest → step s = .next t →
    ∃ r, t.responses = s.responses ++ [r] ∧
      (r.code ≠ 0 → r.res = 0 ∧ t.buf = s.buf ∧ t.taur = s.taur ∧ t.numel = s.numel ∧ t.nwords = s.nwords)

/-- R125: fault entry. A packet that leaves a running unit halted has set FLT, a cause of 1 .. 7, FOPC and FOFF to its own
OPC and OFF bits, has been answered (cause, 0), and has changed nothing else; and no packet sent to a halted unit changes FLT,
CAUSE, FOPC, FOFF, BUF, TAUR, NUMEL or NWORDS, so the fault registers describe the first fault until the next reset. -/
def Obligations.FaultEntryRecordsThePacket : Prop :=
  (∀ (c : Packet) (rest : List HostEvent) (s t : State), s.flt = false → s.input = .command c :: rest →
    step s = .next t → t.flt = true →
    1 ≤ t.cause.toNat ∧ t.cause.toNat ≤ 7 ∧
      t = { s with input := rest }.haltedBy t.cause (c.extractLsb' 0 8) (c.extractLsb' 32 32)) ∧
  (∀ (c : Packet) (rest : List HostEvent) (s t : State), s.flt = true → s.input = .command c :: rest →
    step s = .next t →
    t.flt = true ∧ t.cause = s.cause ∧ t.fopc = s.fopc ∧ t.foff = s.foff ∧
      t.buf = s.buf ∧ t.taur = s.taur ∧ t.numel = s.numel ∧ t.nwords = s.nwords)

/-- R123: the order of the checks. Halted comes before decoding, decoding before the operands, the operands before the range. -/
def Obligations.ChecksInFixedOrder : Prop :=
  (∀ (c : Packet) (rest : List HostEvent) (s : State), s.flt = true → s.input = .command c :: rest →
    decode c ≠ .ok .status → step s = .next ({ s with input := rest }.withResponse 8 0)) ∧
  (∀ (c : Packet) (rest : List HostEvent) (e : Reject) (s : State), s.flt = false → s.input = .command c :: rest →
    decode c = .error e →
    step s = .next ({ s with input := rest }.haltedBy 1 (c.extractLsb' 0 8) (c.extractLsb' 32 32))) ∧
  (∀ (i len value : Nat) (s : State), s.flt = false → ¬ (1 ≤ len ∧ len ≤ s.params.width.bits) →
    exec (.getblock i len) s = .next (s.haltedBy 2 0x04 (BitVec.ofNat 32 i)) ∧
    exec (.setblock i len value) s = .next (s.haltedBy 2 0x05 (BitVec.ofNat 32 i)) ∧
    exec (.construct i len) s = .next (s.haltedBy 6 0x08 (BitVec.ofNat 32 i))) ∧
  (∀ (i len value : Nat) (s : State), s.flt = false → 1 ≤ len → len ≤ s.params.width.bits → s.bitCount < i + len →
    exec (.getblock i len) s = .next (s.haltedBy 4 0x04 (BitVec.ofNat 32 i)) ∧
    exec (.setblock i len value) s = .next (s.haltedBy 4 0x05 (BitVec.ofNat 32 i))) ∧
  (∀ (n tau : Nat) (s : State), s.flt = false → 1 ≤ tau → tau ≤ s.params.width.bits →
    s.params.maxWords < bufferWords s.params.width n tau →
    exec (.construct n tau) s = .next (s.haltedBy 7 0x08 (BitVec.ofNat 32 n))) ∧
  (∀ (i : Nat) (s : State), s.flt = false → s.bitCount ≤ i →
    exec (.setbit i) s = .next (s.haltedBy 3 0x01 (BitVec.ofNat 32 i)) ∧
    exec (.resetbit i) s = .next (s.haltedBy 3 0x02 (BitVec.ofNat 32 i)) ∧
    exec (.testbit i) s = .next (s.haltedBy 3 0x03 (BitVec.ofNat 32 i))) ∧
  (∀ (index value : Nat) (s : State), s.flt = false → s.numel.toNat ≤ index →
    exec (.aget index) s = .next (s.haltedBy 5 0x0A (BitVec.ofNat 32 index)) ∧
    exec (.aset index value) s = .next (s.haltedBy 5 0x0B (BitVec.ofNat 32 index)))

/-! Memory. -/

/-- R41: inside BUF a word written reads back, every other word is unchanged, and a read has no side effect. -/
def Obligations.WordWriteThenRead : Prop :=
  ∀ (k v : Nat) (s : State), k < s.nwords.toNat → v < 2 ^ s.params.width.bits →
    ∃ b, s.memWrite k v = .ok { s with buf := b } ∧ State.memRead { s with buf := b } k = .ok v ∧
      (∀ j, j ≠ k → State.memRead { s with buf := b } j = s.memRead j) ∧
      (∀ a, ¬ (k * s.params.width.bytes ≤ a ∧ a < k * s.params.width.bytes + s.params.width.bytes) →
        b.read a = s.buf.read a)

/-- R42: the two views of the buffer are one: bit `n` of `Bits(BUF)` is bit `n mod W` of word `n div W`, and bit `j` of the block
at `i` is stream bit `i + j`. -/
def Obligations.BitStreamIsTheWords : Prop :=
  ∀ (s : State) (n : Nat), n < s.bitCount →
    s.bits.testBit n = (s.word (n / s.params.width.bits)).testBit (n % s.params.width.bits) ∧
    ∀ i len j, j < len → i + j = n → (s.bits / 2 ^ i % 2 ^ len).testBit j = s.bits.testBit n

/-! Single-bit commands. -/

/-- R81: SETBIT in range sets stream bit `i` and changes nothing else; out of range it is BitRange. And its packet. -/
def Obligations.SetbitSetsOneBit : Prop :=
  ∀ (i : Nat) (s : State), s.flt = false →
    (i < s.bitCount →
      ∃ b, exec (.setbit i) s = .next (State.withResponse { s with buf := b } 0 0) ∧
        b.word s.params.width (wordIndex s.params.width i) =
          s.word (wordIndex s.params.width i) ||| 2 ^ bitPos s.params.width i ∧
        (∀ k, k ≠ wordIndex s.params.width i → b.word s.params.width k = s.word k) ∧
        (∀ n, b.bit s.params.width n = if n = i then true else s.bit n) ∧
        (∀ a, ¬ (wordIndex s.params.width i * s.params.width.bytes ≤ a ∧
            a < wordIndex s.params.width i * s.params.width.bytes + s.params.width.bytes) →
          b.read a = s.buf.read a)) ∧
    (s.bitCount ≤ i → exec (.setbit i) s = .next (s.haltedBy 3 0x01 (BitVec.ofNat 32 i))) ∧
    (i < 2 ^ 32 → decode (Packet.ofFields 0 (BitVec.ofNat 32 i) 0 0x01) = .ok (.setbit i))

/-- R82: RESETBIT in range clears stream bit `i` and changes nothing else; out of range it is BitRange. And its packet. -/
def Obligations.ResetbitClearsOneBit : Prop :=
  ∀ (i : Nat) (s : State), s.flt = false →
    (i < s.bitCount →
      ∃ b, exec (.resetbit i) s = .next (State.withResponse { s with buf := b } 0 0) ∧
        b.word s.params.width (wordIndex s.params.width i) =
          s.word (wordIndex s.params.width i) &&& (2 ^ s.params.width.bits - 1 - 2 ^ bitPos s.params.width i) ∧
        (∀ k, k ≠ wordIndex s.params.width i → b.word s.params.width k = s.word k) ∧
        (∀ n, b.bit s.params.width n = if n = i then false else s.bit n) ∧
        (∀ a, ¬ (wordIndex s.params.width i * s.params.width.bytes ≤ a ∧
            a < wordIndex s.params.width i * s.params.width.bytes + s.params.width.bytes) →
          b.read a = s.buf.read a)) ∧
    (s.bitCount ≤ i → exec (.resetbit i) s = .next (s.haltedBy 3 0x02 (BitVec.ofNat 32 i))) ∧
    (i < 2 ^ 32 → decode (Packet.ofFields 0 (BitVec.ofNat 32 i) 0 0x02) = .ok (.resetbit i))

/-- R83: TESTBIT in range answers stream bit `i` as 0 or 1 and changes nothing; out of range it is BitRange. And its packet. -/
def Obligations.TestbitReturnsOneBit : Prop :=
  ∀ (i : Nat) (s : State), s.flt = false →
    (i < s.bitCount → exec (.testbit i) s =
      .next (s.withResponse 0 (if (s.word (i / s.params.width.bits)).testBit (i % s.params.width.bits) then 1 else 0))) ∧
    (s.bitCount ≤ i → exec (.testbit i) s = .next (s.haltedBy 3 0x03 (BitVec.ofNat 32 i))) ∧
    (i < 2 ^ 32 → decode (Packet.ofFields 0 (BitVec.ofNat 32 i) 0 0x03) = .ok (.testbit i))

/-- R84: the laws of the single-bit commands, in range: set then test gives 1, reset then test gives 0, other bits as before. -/
def Obligations.SetResetTestLaws : Prop :=
  ∀ (i : Nat) (s : State), s.flt = false → i < s.bitCount →
    (∃ t, exec (.setbit i) s = .next t ∧ exec (.testbit i) t = .next (t.withResponse 0 1) ∧
      ∀ j, j < s.bitCount → j ≠ i →
        ∃ r, exec (.testbit j) s = .next (s.withResponse 0 r) ∧ exec (.testbit j) t = .next (t.withResponse 0 r)) ∧
    (∃ t, exec (.resetbit i) s = .next t ∧ exec (.testbit i) t = .next (t.withResponse 0 0) ∧
      ∀ j, j < s.bitCount → j ≠ i →
        ∃ r, exec (.testbit j) s = .next (s.withResponse 0 r) ∧ exec (.testbit j) t = .next (t.withResponse 0 r))

/-! Block commands. -/

/-- R91: GETBLOCK word by word, with its two faults, BadLength first; it changes nothing but the response port. -/
def Obligations.GetblockReadsWords : Prop :=
  ∀ (i len : Nat) (s : State), s.flt = false →
    (1 ≤ len → len ≤ s.params.width.bits → i + len ≤ s.bitCount →
      exec (.getblock i len) s = .next (s.withResponse 0 (BitVec.ofNat 64
        (if i % s.params.width.bits + len ≤ s.params.width.bits then
          s.word (i / s.params.width.bits) / 2 ^ (i % s.params.width.bits) % 2 ^ len
        else
          ((s.word (i / s.params.width.bits) / 2 ^ (i % s.params.width.bits)) |||
            (s.word (i / s.params.width.bits + 1) * 2 ^ (s.params.width.bits - i % s.params.width.bits)
              % 2 ^ s.params.width.bits)) % 2 ^ len)))) ∧
    (¬ (1 ≤ len ∧ len ≤ s.params.width.bits) →
      exec (.getblock i len) s = .next (s.haltedBy 2 0x04 (BitVec.ofNat 32 i))) ∧
    (1 ≤ len → len ≤ s.params.width.bits → s.bitCount < i + len →
      exec (.getblock i len) s = .next (s.haltedBy 4 0x04 (BitVec.ofNat 32 i))) ∧
    (i < 2 ^ 32 → len < 2 ^ 8 →
      decode (Packet.ofFields 0 (BitVec.ofNat 32 i) (BitVec.ofNat 8 len) 0x04) = .ok (.getblock i len))

/-- R92: the value GETBLOCK returns, on the bit stream: `(Bits(BUF) div 2^i) mod 2^len`, bit `j` of it stream bit `i + j`. -/
def Obligations.GetblockReadsBitStream : Prop :=
  ∀ (i len : Nat) (s : State), s.flt = false → 1 ≤ len → len ≤ s.params.width.bits → i + len ≤ s.bitCount →
    exec (.getblock i len) s = .next (s.withResponse 0 (BitVec.ofNat 64 (s.bits / 2 ^ i % 2 ^ len))) ∧
    ∀ j, j < len → (BitVec.ofNat 64 (s.bits / 2 ^ i % 2 ^ len)).getLsbD j = s.bit (i + j)

/-- R45: GETBLOCK depends on word `k` alone, and on word `k + 1` only when the block straddles. -/
def Obligations.GetblockFootprint : Prop :=
  ∀ (i len : Nat) (s : State) (b : Memory), s.flt = false → 1 ≤ len → len ≤ s.params.width.bits → i + len ≤ s.bitCount →
    b.word s.params.width (i / s.params.width.bits) = s.word (i / s.params.width.bits) →
    (s.params.width.bits < i % s.params.width.bits + len →
      b.word s.params.width (i / s.params.width.bits + 1) = s.word (i / s.params.width.bits + 1)) →
    ∃ r, exec (.getblock i len) s = .next (s.withResponse 0 r) ∧
      exec (.getblock i len) { s with buf := b } = .next (State.withResponse { s with buf := b } 0 r)

/-- R93: SETBLOCK word by word, with its two faults, BadLength first; every byte outside the stored words as before. -/
def Obligations.SetblockWritesWords : Prop :=
  ∀ (i len value : Nat) (s : State), s.flt = false →
    (1 ≤ len → len ≤ s.params.width.bits → i + len ≤ s.bitCount →
      ∃ b, exec (.setblock i len value) s = .next (State.withResponse { s with buf := b } 0 0) ∧
        (¬ straddles s.params.width i len →
          b.word s.params.width (wordIndex s.params.width i) =
            (s.word (wordIndex s.params.width i) &&&
              notWord s.params.width ((2 ^ len - 1) * 2 ^ bitPos s.params.width i)) |||
            (value % 2 ^ len * 2 ^ bitPos s.params.width i) ∧
          ∀ k, k ≠ wordIndex s.params.width i → b.word s.params.width k = s.word k) ∧
        (straddles s.params.width i len →
          b.word s.params.width (wordIndex s.params.width i) =
            (s.word (wordIndex s.params.width i) &&&
              notWord s.params.width ((2 ^ len - 1) * 2 ^ bitPos s.params.width i % 2 ^ s.params.width.bits)) |||
            (value % 2 ^ len * 2 ^ bitPos s.params.width i % 2 ^ s.params.width.bits) ∧
          b.word s.params.width (wordIndex s.params.width i + 1) =
            (s.word (wordIndex s.params.width i + 1) &&&
              notWord s.params.width ((2 ^ len - 1) / 2 ^ (s.params.width.bits - bitPos s.params.width i))) |||
            (value % 2 ^ len / 2 ^ (s.params.width.bits - bitPos s.params.width i)) ∧
          ∀ k, k ≠ wordIndex s.params.width i → k ≠ wordIndex s.params.width i + 1 →
            b.word s.params.width k = s.word k) ∧
        (∀ a, ¬ inStoredBytes s.params.width i len a → b.read a = s.buf.read a)) ∧
    (¬ (1 ≤ len ∧ len ≤ s.params.width.bits) →
      exec (.setblock i len value) s = .next (s.haltedBy 2 0x05 (BitVec.ofNat 32 i))) ∧
    (1 ≤ len → len ≤ s.params.width.bits → s.bitCount < i + len →
      exec (.setblock i len value) s = .next (s.haltedBy 4 0x05 (BitVec.ofNat 32 i))) ∧
    (i < 2 ^ 32 → len < 2 ^ 8 → value < 2 ^ 64 →
      decode (Packet.ofFields (BitVec.ofNat 64 value) (BitVec.ofNat 32 i) (BitVec.ofNat 8 len) 0x05) =
        .ok (.setblock i len value))

/-- R94: the effect of SETBLOCK on the bit stream, bit by bit and as the equation between the two numbers `Bits(BUF)`. -/
def Obligations.SetblockWritesBitStream : Prop :=
  ∀ (i len value : Nat) (s : State), s.flt = false → 1 ≤ len → len ≤ s.params.width.bits → i + len ≤ s.bitCount →
    ∃ b, exec (.setblock i len value) s = .next (State.withResponse { s with buf := b } 0 0) ∧
      (∀ n, b.bit s.params.width n = if i ≤ n ∧ n < i + len then value.testBit (n - i) else s.bit n) ∧
      State.bits { s with buf := b } =
        s.bits - (s.bits / 2 ^ i % 2 ^ len) * 2 ^ i + (value % 2 ^ len) * 2 ^ i

/-- R95: SETBLOCK then GETBLOCK of the same block answers the value truncated; a disjoint GETBLOCK answers as before. -/
def Obligations.SetblockThenGetblock : Prop :=
  ∀ (i len value : Nat) (s : State), s.flt = false → 1 ≤ len → len ≤ s.params.width.bits → i + len ≤ s.bitCount →
    ∃ t, exec (.setblock i len value) s = .next t ∧
      exec (.getblock i len) t = .next (t.withResponse 0 (BitVec.ofNat 64 (value % 2 ^ len))) ∧
      ∀ j n, 1 ≤ n → n ≤ s.params.width.bits → j + n ≤ s.bitCount → j + n ≤ i ∨ i + len ≤ j →
        ∃ r, exec (.getblock j n) s = .next (s.withResponse 0 r) ∧ exec (.getblock j n) t = .next (t.withResponse 0 r)

/-- R96: the single-bit commands are blocks of length 1, with the same effect and result in range, and they fault on the
same offsets with different codes. -/
def Obligations.BitCommandsAreBlocksOfOne : Prop :=
  ∀ (i : Nat) (s : State), s.flt = false →
    (i < s.bitCount →
      exec (.setbit i) s = exec (.setblock i 1 1) s ∧
      exec (.resetbit i) s = exec (.setblock i 1 0) s ∧
      exec (.testbit i) s = exec (.getblock i 1) s) ∧
    (s.bitCount ≤ i →
      exec (.setbit i) s = .next (s.haltedBy 3 0x01 (BitVec.ofNat 32 i)) ∧
      exec (.setblock i 1 1) s = .next (s.haltedBy 4 0x05 (BitVec.ofNat 32 i)) ∧
      exec (.resetbit i) s = .next (s.haltedBy 3 0x02 (BitVec.ofNat 32 i)) ∧
      exec (.setblock i 1 0) s = .next (s.haltedBy 4 0x05 (BitVec.ofNat 32 i)) ∧
      exec (.testbit i) s = .next (s.haltedBy 3 0x03 (BitVec.ofNat 32 i)) ∧
      exec (.getblock i 1) s = .next (s.haltedBy 4 0x04 (BitVec.ofNat 32 i)))

/-- R46: executing the same SETBIT, RESETBIT, SETBLOCK or ASET twice in a row leaves the state of executing it once, but for
the second response. -/
def Obligations.WritesAreIdempotent : Prop :=
  ∀ (i : Instr) (s : State), s.Inv → s.flt = false → i.isWrite = true →
    ∃ t u, exec i s = .next t ∧ exec i t = .next u ∧ u = { t with responses := u.responses }

/-! Packed-array commands. -/

/-- R101: the buffer of `n` elements of `tau` bits has one word more than the fewest words that hold `n * tau` bits. -/
def Obligations.BufferHasOneSpareWord : Prop :=
  ∀ (w : Width) (n tau : Nat), ∃ c, bufferWords w n tau = c + 1 ∧ n * tau ≤ c * w.bits ∧
    ∀ d, n * tau ≤ d * w.bits → c ≤ d

/-- R102: CONSTRUCT makes a zero-filled array of `ceil(n * tau / W) + 1` words, or faults with BadTau or Capacity, BadTau
first, changing nothing then. -/
def Obligations.ConstructMakesZeroArray : Prop :=
  ∀ (n tau : Nat) (s : State), s.flt = false → s.params.legal → n < 2 ^ 32 →
    (1 ≤ tau → tau ≤ s.params.width.bits →
      (n * tau + s.params.width.bits - 1) / s.params.width.bits + 1 ≤ s.params.maxWords →
      ∃ nw ta ne b,
        exec (.construct n tau) s =
          .next (State.withResponse { s with nwords := nw, taur := ta, numel := ne, buf := b } 0 0) ∧
        nw.toNat = (n * tau + s.params.width.bits - 1) / s.params.width.bits + 1 ∧ ta.toNat = tau ∧ ne.toNat = n ∧
        (∀ k, k < nw.toNat → b.word s.params.width k = 0) ∧
        (∀ a, a < nw.toNat * s.params.width.bytes → b.read a = 0)) ∧
    (¬ (1 ≤ tau ∧ tau ≤ s.params.width.bits) →
      exec (.construct n tau) s = .next (s.haltedBy 6 0x08 (BitVec.ofNat 32 n))) ∧
    (1 ≤ tau → tau ≤ s.params.width.bits →
      s.params.maxWords < (n * tau + s.params.width.bits - 1) / s.params.width.bits + 1 →
      exec (.construct n tau) s = .next (s.haltedBy 7 0x08 (BitVec.ofNat 32 n))) ∧
    (tau < 2 ^ 8 →
      decode (Packet.ofFields 0 (BitVec.ofNat 32 n) (BitVec.ofNat 8 tau) 0x08) = .ok (.construct n tau))

/-- R103: RELEASE on a running unit empties it: NWORDS, TAUR, NUMEL are 0, the other registers as before, and no buffer word
can be read or written. -/
def Obligations.ReleaseEmptiesUnit : Prop :=
  ∀ s : State, s.flt = false →
    ∃ b, exec .release s = .next (State.withResponse { s with nwords := 0, taur := 0, numel := 0, buf := b } 0 0) ∧
      (∀ k v, State.memRead { s with nwords := 0, taur := 0, numel := 0, buf := b } k ≠ .ok v) ∧
      (∀ k v u, State.memWrite { s with nwords := 0, taur := 0, numel := 0, buf := b } k v ≠ .ok u) ∧
      decode (Packet.ofFields 0 0 0 0x09) = .ok .release

/-- Log entry 4 (DEDUCED from R49 and R102, not said by them of storage that no command can read): after a CONSTRUCT that
succeeds, and after a RELEASE, every byte of the model's memory list reads 0, beyond NWORDS too. -/
def Obligations.ConstructAndReleaseEmptyTheList : Prop :=
  ∀ (n tau : Nat) (s : State), s.flt = false →
    (1 ≤ tau → tau ≤ s.params.width.bits → bufferWords s.params.width n tau ≤ s.params.maxWords →
      ∃ t, exec (.construct n tau) s = .next t ∧ (∀ a, t.buf.read a = 0) ∧ ∀ k, t.word k = 0) ∧
    ∃ t, exec .release s = .next t ∧ (∀ a, t.buf.read a = 0) ∧ ∀ k, t.word k = 0

/-- R104: AGET answers the TAUR bits at `index * TAUR` of the stream and changes nothing; an index of NUMEL or more is
IndexRange. -/
def Obligations.AgetReturnsElement : Prop :=
  ∀ (index : Nat) (s : State), s.Inv → s.flt = false →
    (index < s.numel.toNat → exec (.aget index) s =
      .next (s.withResponse 0 (BitVec.ofNat 64 (s.bits / 2 ^ (index * s.taur.toNat) % 2 ^ s.taur.toNat)))) ∧
    (s.numel.toNat ≤ index → exec (.aget index) s = .next (s.haltedBy 5 0x0A (BitVec.ofNat 32 index))) ∧
    (index < 2 ^ 32 → decode (Packet.ofFields 0 (BitVec.ofNat 32 index) 0 0x0A) = .ok (.aget index))

/-- R105: ASET replaces the TAUR bits at `index * TAUR` by the value's low TAUR bits and changes nothing else; an index of
NUMEL or more is IndexRange. -/
def Obligations.AsetReplacesElement : Prop :=
  ∀ (index value : Nat) (s : State), s.Inv → s.flt = false →
    (index < s.numel.toNat →
      ∃ b, exec (.aset index value) s = .next (State.withResponse { s with buf := b } 0 0) ∧
        (∀ n, b.bit s.params.width n =
          if index * s.taur.toNat ≤ n ∧ n < index * s.taur.toNat + s.taur.toNat then
            value.testBit (n - index * s.taur.toNat)
          else s.bit n) ∧
        (∀ a, ¬ inStoredBytes s.params.width (elementOffset s.taur.toNat index) s.taur.toNat a →
          b.read a = s.buf.read a)) ∧
    (s.numel.toNat ≤ index → exec (.aset index value) s = .next (s.haltedBy 5 0x0B (BitVec.ofNat 32 index))) ∧
    (index < 2 ^ 32 → value < 2 ^ 64 →
      decode (Packet.ofFields (BitVec.ofNat 64 value) (BitVec.ofNat 32 index) 0 0x0B) = .ok (.aset index value))

/-- R108: the truncation law: ASET then AGET of the same element answers `v mod 2^TAUR`. -/
def Obligations.AsetThenAgetTruncates : Prop :=
  ∀ (index value : Nat) (s : State), s.Inv → s.flt = false → index < s.numel.toNat →
    ∃ t, exec (.aset index value) s = .next t ∧
      exec (.aget index) t = .next (t.withResponse 0 (BitVec.ofNat 64 (value % 2 ^ s.taur.toNat)))

/-- R109: on a legal state an element in range lies below the spare word. -/
def Obligations.ElementsLieBelowSpareWord : Prop :=
  ∀ (index : Nat) (s : State), s.Inv → index < s.numel.toNat →
    index * s.taur.toNat + s.taur.toNat ≤ s.numel.toNat * s.taur.toNat ∧
    s.numel.toNat * s.taur.toNat ≤ (s.nwords.toNat - 1) * s.params.width.bits ∧
    (s.nwords.toNat - 1) * s.params.width.bits < s.nwords.toNat * s.params.width.bits

/-- R110: ASET leaves every other element, the unused tail and the spare word unchanged. -/
def Obligations.ElementsAreIndependent : Prop :=
  ∀ (index value : Nat) (s : State), s.Inv → s.flt = false → index < s.numel.toNat →
    ∃ t, exec (.aset index value) s = .next t ∧
      (∀ j, j < s.numel.toNat → j ≠ index →
        ∃ r, exec (.aget j) s = .next (s.withResponse 0 r) ∧ exec (.aget j) t = .next (t.withResponse 0 r)) ∧
      (∀ n, s.numel.toNat * s.taur.toNat ≤ n → t.bit n = s.bit n)

/-- R111: on a legal state, in range, the array commands are the block commands at `index * TAUR`. -/
def Obligations.ArrayCommandsAreBlockCommands : Prop :=
  ∀ (index value : Nat) (s : State), s.Inv → s.flt = false → index < s.numel.toNat →
    exec (.aget index) s = exec (.getblock (index * s.taur.toNat) s.taur.toNat) s ∧
    exec (.aset index value) s = exec (.setblock (index * s.taur.toNat) s.taur.toNat value) s ∧
    (∃ t, exec (.aget index) s = .next t ∧ t.flt = false) ∧ (∃ t, exec (.aset index value) s = .next t ∧ t.flt = false)

/-- R106: GETLEN answers NUMEL and changes nothing. -/
def Obligations.GetlenReturnsLength : Prop :=
  ∀ s : State, s.flt = false → exec .getlen s = .next (s.withResponse 0 (s.numel.setWidth 64)) ∧
    decode (Packet.ofFields 0 0 0 0x0C) = .ok .getlen

/-- R107: GETTAU answers TAUR and changes nothing; on a legal state it answers 0 exactly when the unit is empty. -/
def Obligations.GettauReturnsWidth : Prop :=
  ∀ s : State, s.flt = false → exec .gettau s = .next (s.withResponse 0 (s.taur.setWidth 64)) ∧
    (s.Inv → (s.taur.setWidth 64 = 0 ↔ s.nwords = 0)) ∧
    decode (Packet.ofFields 0 0 0 0x0D) = .ok .gettau

/-! STATUS and the whole machine. -/

/-- R116: STATUS answers the fault registers in one word, halted or not, and changes nothing; on a legal state that has not
faulted the word is 0; one packet alone is STATUS; a halted unit executes no other command, it answers Halted. -/
def Obligations.StatusReturnsFaultRegisters : Prop :=
  (∀ s : State, ∃ r : BitVec 64, exec .status s = .next (s.withResponse 0 r) ∧
    r.extractLsb' 0 1 = BitVec.ofBool s.flt ∧ r.extractLsb' 1 7 = 0 ∧ r.extractLsb' 8 8 = s.cause ∧
    r.extractLsb' 16 8 = s.fopc ∧ r.extractLsb' 24 8 = 0 ∧ r.extractLsb' 32 32 = s.foff ∧
    (s.Inv → s.flt = false → r = 0)) ∧
  (∀ c : Packet, decode c = .ok .status ↔ c = 0x0E) ∧
  ∀ (i : Instr) (s : State), s.flt = true → i ≠ .status → exec i s = .next (s.withResponse 8 0)

/-- R142: the state after reset as seen through commands, for a unit with any legal parameters. -/
def Obligations.ResetSeenThroughCommands : Prop :=
  ∀ (p : Params) (s : State), p.legal → s = { State.resetOf p with input := s.input, responses := s.responses } →
    exec .getlen s = .next (s.withResponse 0 0) ∧ exec .gettau s = .next (s.withResponse 0 0) ∧
    exec .status s = .next (s.withResponse 0 0) ∧ exec .release s = .next (s.withResponse 0 0) ∧
    (∀ i, exec (.setbit i) s = .next (s.haltedBy 3 0x01 (BitVec.ofNat 32 i)) ∧
      exec (.resetbit i) s = .next (s.haltedBy 3 0x02 (BitVec.ofNat 32 i)) ∧
      exec (.testbit i) s = .next (s.haltedBy 3 0x03 (BitVec.ofNat 32 i))) ∧
    (∀ i len value, 1 ≤ len → len ≤ p.width.bits →
      exec (.getblock i len) s = .next (s.haltedBy 4 0x04 (BitVec.ofNat 32 i)) ∧
      exec (.setblock i len value) s = .next (s.haltedBy 4 0x05 (BitVec.ofNat 32 i))) ∧
    (∀ index value, exec (.aget index) s = .next (s.haltedBy 5 0x0A (BitVec.ofNat 32 index)) ∧
      exec (.aset index value) s = .next (s.haltedBy 5 0x0B (BitVec.ofNat 32 index))) ∧
    (∀ n tau, 1 ≤ tau → tau ≤ p.width.bits → bufferWords p.width n tau ≤ p.maxWords →
      ∃ t, exec (.construct n tau) s = .next t ∧ t.flt = false ∧ t.responses = s.responses ++ [⟨0, 0⟩])

/-- R28: the invariants hold at reset, whatever the legal parameters, and at the model's own reset state (log 2); and a unit
after reset has no fault to report. -/
def Obligations.ResetMeetsInvariants : Prop :=
  State.reset.Inv ∧ (∀ p : Params, p.legal → (State.resetOf p).Inv) ∧ ∀ p : Params, (State.resetOf p).ReportsFault

/-- R28: every step from a state that meets the invariants ends in a state that meets them, for every event whatever. -/
def Obligations.StepKeepsInvariants : Prop :=
  ∀ s t : State, s.Inv → step s = .next t → t.Inv

/-- R28 point 5: every buffer word holds a value of `W` bits, in every state. -/
def Obligations.WordsHaveWordWidth : Prop :=
  ∀ (s : State) (k : Nat), s.word k < 2 ^ s.params.width.bits

/-- The model's assumption that every command is answered, which R151 marks as the model's (DEDUCED, log 15): from a legal
state a run of any length ends in a next state, has taken one event a step while there were any, and has added one response
for each packet taken and none for a reset, the earlier responses as they were. -/
def Obligations.RunsNeverStop : Prop :=
  ∀ (k : Nat) (s : State), s.Inv → ∃ t new, core.run k s = .next t ∧ t.params = s.params ∧ t.input = s.input.drop k ∧
    t.responses = s.responses ++ new ∧ new.length = (s.input.take k).countP HostEvent.isCommand

/-- R65, R126 and R151 give every packet a rule that is total, so no command is refused; R41 and R10 leave MemRead, MemWrite
and `mask` undefined outside their ranges, which R109 rules out on legal states, so one of the model's faults (DEDUCED,
log 8) comes only in a state that breaks the invariants. -/
def Obligations.NothingRefused : Prop :=
  (∀ (i : Instr) (s : State) (r : Refusal), exec i s ≠ .refused r) ∧
  (∀ (i : Instr) (s : State) (f : Fault), exec i s = .fault f → ¬ s.Inv)

/-- R5, R6: `W` and `MAXWORDS` never change while the unit runs (they stand in State by log 1, DESIGN CHOICE). -/
def Obligations.ParametersNeverChange : Prop :=
  ∀ s t : State, step s = .next t → t.params = s.params

/-- R129: on a running unit in a legal state a command answers OK exactly when it keeps the source's contract (and fits the
capacity); otherwise the unit is halted. -/
def Obligations.ContractDecidesTheCode : Prop :=
  ∀ (i : Instr) (s : State), s.Inv → s.flt = false →
    ∃ t r, exec i s = .next t ∧ t.responses = s.responses ++ [r] ∧ (i.keepsContract s ↔ r.code = 0) ∧
      (t.flt = true ↔ r.code ≠ 0)

/-- R117: TAUR, NUMEL and NWORDS change only through CONSTRUCT and RELEASE; BUF only through them and the four writing
commands. -/
def Obligations.RegistersChangeOnlyByTheirCommands : Prop :=
  ∀ (i : Instr) (s t : State), exec i s = .next t →
    ((t.taur ≠ s.taur ∨ t.numel ≠ s.numel ∨ t.nwords ≠ s.nwords) → i = .release ∨ ∃ n tau, i = .construct n tau) ∧
    (t.buf ≠ s.buf → i = .release ∨ (∃ n tau, i = .construct n tau) ∨ i.isWrite = true)

/-- R24, R25: the codec commands neither read nor write TAUR and NUMEL. -/
def Obligations.CodecIgnoresArrayRegisters : Prop :=
  ∀ (i : Instr) (s : State) (x : BitVec 7) (y : BitVec 32), i.isCodec = true →
    ∃ t, exec i s = .next t ∧ exec i { s with taur := x, numel := y } = .next { t with taur := x, numel := y }

/-- R31: a command's effect and response do not depend on earlier responses or on what the host sends next. -/
def Obligations.HistoryDoesNotMatter : Prop :=
  ∀ (i : Instr) (s t : State) (q : List HostEvent) (rs : List Response), exec i s = .next t →
    ∃ r, t.responses = s.responses ++ [r] ∧ t.input = s.input ∧
      exec i { s with input := q, responses := rs } = .next { t with input := q, responses := rs ++ [r] }

/-- R151: a run from a healthy state went wrong by its responses exactly when FLT was 1 at some point of it. -/
def Obligations.RunWentWrongIffHalted : Prop :=
  ∀ (k : Nat) (s t : State), s.Healthy → core.run k s = .next t →
    ((∃ r ∈ t.responses, r.code ≠ 0) ↔ ∃ j u, j ≤ k ∧ core.run j s = .next u ∧ u.flt = true)

/-- R125, R126, R151: FLT and the CODE of what was answered go together in every step. A step adds responses to those
delivered; from a running unit it halts exactly when one it adds has a CODE other than 0; from a halted unit it adds only
OK and Halted, and the unit runs again only after a step that adds none, the reset; so that a halted unit has always
reported its fault. -/
def Obligations.StepReportsFaults : Prop :=
  ∀ s t : State, s.ReportsFault → step s = .next t →
    t.ReportsFault ∧ ∃ new, t.responses = s.responses ++ new ∧
      (s.flt = false → (t.flt = true ↔ ∃ r ∈ new, r.code ≠ 0)) ∧
      (s.flt = true → (∀ r ∈ new, r.code = 0 ∨ r.code = 8) ∧ (t.flt = false → new = []))

/-- R68, row by row: the packet each pseudo-command assembles to, `k*W` and `j*width+i` computed exactly, and the exact
bounds at which the line is rejected. And, for every line, the packet decodes to the one command it expands to (R67). -/
def Obligations.PseudoCommandsAssemble : Prop :=
  (∀ (w : Width) (k : Nat), (AsmLine.getword k).assemble w =
    if k * w.bits < 2 ^ 32 then
      some (Packet.ofFields 0 (BitVec.ofNat 32 (k * w.bits)) (BitVec.ofNat 8 w.bits) 0x04)
    else none) ∧
  (∀ (w : Width) (k value : Nat), (AsmLine.setword k value).assemble w =
    if k * w.bits < 2 ^ 32 ∧ value < 2 ^ 64 then
      some (Packet.ofFields (BitVec.ofNat 64 value) (BitVec.ofNat 32 (k * w.bits)) (BitVec.ofNat 8 w.bits) 0x05)
    else none) ∧
  (∀ (w : Width) (i : Nat), (AsmLine.isbitset i).assemble w =
    if i < 2 ^ 32 then some (Packet.ofFields 0 (BitVec.ofNat 32 i) 0 0x03) else none) ∧
  (∀ (w : Width) (i j width : Nat), (AsmLine.getCell i j width).assemble w =
    if j * width + i < 2 ^ 32 then some (Packet.ofFields 0 (BitVec.ofNat 32 (j * width + i)) 0 0x0A) else none) ∧
  (∀ (w : Width) (i j width value : Nat), (AsmLine.setCell i j width value).assemble w =
    if j * width + i < 2 ^ 32 ∧ value < 2 ^ 64 then
      some (Packet.ofFields (BitVec.ofNat 64 value) (BitVec.ofNat 32 (j * width + i)) 0 0x0B)
    else none) ∧
  (∀ (w : Width) (size : Nat), (AsmLine.bitstring size).assemble w =
    if size < 2 ^ 32 then some (Packet.ofFields 0 (BitVec.ofNat 32 size) 1 0x08) else none) ∧
  (∀ (w : Width) (k i j width size value : Nat),
    (AsmLine.getword k).expand w = .getblock (k * w.bits) w.bits ∧
    (AsmLine.setword k value).expand w = .setblock (k * w.bits) w.bits value ∧
    (AsmLine.isbitset i).expand w = .testbit i ∧
    (AsmLine.getCell i j width).expand w = .aget (j * width + i) ∧
    (AsmLine.setCell i j width value).expand w = .aset (j * width + i) value ∧
    (AsmLine.bitstring size).expand w = .construct size 1) ∧
  (∀ (w : Width) (l : AsmLine) (c : Packet), l.assemble w = some c → decode c = .ok (l.expand w)) ∧
  (∀ (w : Width) (l : AsmLine), l.assemble w = none ↔ ¬ (l.expand w).WellFormed)

/-- R68: GETWORD `k` answers word `k` whole, and SETWORD `k, value` replaces it by `value mod 2^W`. -/
def Obligations.WholeWordPseudoCommands : Prop :=
  ∀ (k value : Nat) (s : State), s.flt = false → k < s.nwords.toNat →
    exec ((AsmLine.getword k).expand s.params.width) s = .next (s.withResponse 0 (BitVec.ofNat 64 (s.word k))) ∧
    ∃ b, exec ((AsmLine.setword k value).expand s.params.width) s = .next (State.withResponse { s with buf := b } 0 0) ∧
      b.word s.params.width k = value % 2 ^ s.params.width.bits ∧
      (∀ j, j ≠ k → b.word s.params.width j = s.word j)
end

