-- ==== Sys2Proof/Laws/Memory.lean ====
section
/-! SUPPORT. Laws of the byte list and of the words built from it: read after write, frames, the canonical form. -/

namespace Sys2Proof

theorem Width.pow_bytes (w : Width) : 256 ^ w.bytes = 2 ^ w.bits := by cases w <;> rfl

theorem Width.bits_eq (w : Width) : w.bits = 8 * w.bytes := by cases w <;> rfl

theorem Width.bits_pos (w : Width) : 0 < w.bits := by cases w <;> decide

theorem Width.bytes_pos (w : Width) : 0 < w.bytes := by cases w <;> decide

theorem Width.bits_le (w : Width) : w.bits ≤ 64 := by cases w <;> decide

end Sys2Proof

namespace Sys2Proof.Machine

variable {m : Memory} {a b n v : Nat} {x : Byte} {w : Width}

@[simp] theorem Memory.read_nil (a : Nat) : Memory.read [] a = 0 := rfl

theorem Memory.read_cons (c : Host.Cell) (t : Memory) (a : Nat) :
    Memory.read (c :: t) a = if c.1 = a then c.2 else Memory.read t a := rfl

theorem Memory.read_erase (m : Memory) (a b : Nat) :
    (m.erase a).read b = if b = a then 0 else m.read b := by
  induction m with
  | nil => simp [Memory.erase]
  | cons c t ih =>
    simp only [Memory.erase, List.filter_cons, bne_iff_ne] at ih ⊢
    split
    · rw [Memory.read_cons, Memory.read_cons, ih]; split <;> split <;> simp_all
    · rw [Memory.read_cons, ih]; simp_all; split <;> simp_all [eq_comm]

theorem Memory.read_insert (m : Memory) (a : Nat) (x : Byte) (b : Nat) :
    (m.insert a x).read b = if b = a then x else m.read b := by
  induction m with
  | nil => simp [Memory.insert, Memory.read_cons, eq_comm]
  | cons c t ih =>
    simp only [Memory.insert]
    split
    · simp [Memory.read_cons, eq_comm]
    · split
      · next heq => simp only [Memory.read_cons, heq]; by_cases hb : a = b <;> simp [hb, eq_comm]
      · next hne =>
        simp only [Memory.read_cons, ih]
        by_cases hb : b = a
        · simp [hb, hne]
        · simp [hb]

/-- Reading a byte after a write: the byte written there, every other byte as before. -/
theorem Memory.read_write (m : Memory) (a : Nat) (x : Byte) (b : Nat) :
    (m.write a x).read b = if b = a then x else m.read b := by
  unfold Memory.write
  split
  · simp_all [Memory.read_erase]
  · exact Memory.read_insert m a x b

theorem Memory.mem_erase {c : Host.Cell} (h : c ∈ m.erase a) : c ∈ m ∧ c.1 ≠ a := by
  simpa [Memory.erase] using h

theorem Memory.mem_insert {c : Host.Cell} (h : c ∈ m.insert a x) : c = (a, x) ∨ c ∈ m := by
  induction m with
  | nil => simpa [Memory.insert] using h
  | cons d t ih =>
    simp only [Memory.insert] at h
    split at h
    · simpa using h
    · split at h
      · simp only [List.mem_cons] at h ⊢; tauto
      · simp only [List.mem_cons] at h ⊢; tauto

/-- Every cell of a written list is the one written or was listed before. -/
theorem Memory.mem_write {c : Host.Cell} (h : c ∈ m.write a x) : c.1 = a ∨ c ∈ m := by
  unfold Memory.write at h
  split at h
  · exact .inr (Memory.mem_erase h).1
  · rcases Memory.mem_insert h with rfl | h
    · exact .inl rfl
    · exact .inr h

theorem Memory.pairwise_insert (h : m.Pairwise (fun c d => c.1 < d.1)) :
    (m.insert a x).Pairwise (fun c d => c.1 < d.1) := by
  induction m with
  | nil => simp [Memory.insert]
  | cons c t ih =>
    rw [List.pairwise_cons] at h
    simp only [Memory.insert]
    split
    · rename_i hlt
      refine List.pairwise_cons.2 ⟨fun d hd => ?_, List.pairwise_cons.2 h⟩
      rcases List.mem_cons.1 hd with rfl | hd
      · exact hlt
      · exact hlt.trans (h.1 d hd)
    · split
      · rename_i _ heq
        exact List.pairwise_cons.2 ⟨fun d hd => heq ▸ h.1 d hd, h.2⟩
      · refine List.pairwise_cons.2 ⟨fun d hd => ?_, ih h.2⟩
        rcases Memory.mem_insert hd with rfl | hd
        · show c.1 < a
          omega
        · exact h.1 d hd

/-- A write keeps the canonical form. -/
theorem Memory.wf_write (h : m.wf) (a : Nat) (x : Byte) : (m.write a x).wf := by
  unfold Memory.write
  split
  · exact ⟨h.1.sublist List.filter_sublist, fun c hc => h.2 c (Memory.mem_erase hc).1⟩
  · rename_i hx
    refine ⟨Memory.pairwise_insert h.1, fun c hc => ?_⟩
    rcases Memory.mem_insert hc with rfl | hc
    · exact hx
    · exact h.2 c hc

theorem Memory.wf_nil : Memory.wf [] := by simp [Memory.wf]

theorem Memory.wf_writeBytes (h : m.wf) (a n v : Nat) : (m.writeBytes a n v).wf := by
  induction n generalizing m a v with
  | zero => exact h
  | succ n ih => exact ih (Memory.wf_write h _ _) _ _

theorem Memory.mem_writeBytes {c : Host.Cell} (h : c ∈ m.writeBytes a n v) :
    (a ≤ c.1 ∧ c.1 < a + n) ∨ c ∈ m := by
  induction n generalizing m a v with
  | zero => exact .inr h
  | succ n ih =>
    rcases ih h with h | h
    · exact .inl (by omega)
    · rcases Memory.mem_write h with h | h
      · exact .inl (by omega)
      · exact .inr h

/-- Bytes outside the stored ones read as before. -/
theorem Memory.read_writeBytes_of_outside (h : b < a ∨ a + n ≤ b) :
    (m.writeBytes a n v).read b = m.read b := by
  induction n generalizing m a v with
  | zero => rfl
  | succ n ih =>
    rw [Memory.writeBytes, ih (by omega), Memory.read_write, if_neg (by omega)]

theorem Memory.readBytes_congr {m' : Memory} (h : ∀ b, a ≤ b → b < a + n → m'.read b = m.read b) :
    m'.readBytes a n = m.readBytes a n := by
  induction n generalizing a with
  | zero => rfl
  | succ n ih =>
    simp only [Memory.readBytes]
    rw [h a (by omega) (by omega), ih fun b hb hb' => h b (by omega) (by omega)]

theorem Memory.readBytes_lt (m : Memory) (a n : Nat) : m.readBytes a n < 256 ^ n := by
  induction n generalizing a with
  | zero => simp [Memory.readBytes]
  | succ n ih =>
    have := (m.read a).isLt
    have := ih (a + 1)
    simp only [Memory.readBytes, pow_succ]
    omega

theorem Memory.readBytes_writeBytes (m : Memory) (a n v : Nat) :
    (m.writeBytes a n v).readBytes a n = v % 256 ^ n := by
  induction n generalizing m a v with
  | zero => simp [Memory.readBytes, Nat.mod_one]
  | succ n ih =>
    simp only [Memory.readBytes, Memory.writeBytes]
    rw [ih, Memory.read_writeBytes_of_outside (by omega), Memory.read_write, if_pos rfl, pow_succ, Nat.mul_comm,
      Nat.mul_comm (256 ^ n), Nat.mod_mul]
    simp
    ring

theorem Memory.readBytes_nil (a n : Nat) : Memory.readBytes [] a n = 0 := by
  induction n generalizing a with
  | zero => rfl
  | succ n ih => simp [Memory.readBytes, ih]

/-- Every word holds a value of `W` bits (R28 point 5). -/
theorem Memory.word_lt (w : Width) (m : Memory) (k : Nat) : m.word w k < 2 ^ w.bits :=
  Width.pow_bytes w ▸ Memory.readBytes_lt m _ _

/-- A fresh buffer is all zero (R102). -/
theorem Memory.word_nil (w : Width) (k : Nat) : Memory.word w [] k = 0 := Memory.readBytes_nil _ _

/-- The word written reads back, truncated to `W` bits (R41). -/
theorem Memory.word_setWord_self (w : Width) (m : Memory) (k v : Nat) :
    (m.setWord w k v).word w k = v % 2 ^ w.bits := by
  rw [Memory.word, Memory.setWord, Memory.readBytes_writeBytes, Width.pow_bytes]

theorem Memory.read_setWord_of_outside {k : Nat} (h : b < k * w.bytes ∨ k * w.bytes + w.bytes ≤ b) :
    (m.setWord w k v).read b = m.read b :=
  Memory.read_writeBytes_of_outside h

/-- A write changes exactly the named word (R41). -/
theorem Memory.word_setWord_of_ne {j k : Nat} (h : j ≠ k) (m : Memory) (v : Nat) :
    (m.setWord w k v).word w j = m.word w j := by
  refine Memory.readBytes_congr fun b hb hb' => Memory.read_setWord_of_outside ?_
  rcases Nat.lt_or_gt_of_ne h with h | h
  · left
    have : (j + 1) * w.bytes ≤ k * w.bytes := Nat.mul_le_mul_right _ h
    rw [Nat.add_mul] at this; omega
  · right
    have : (k + 1) * w.bytes ≤ j * w.bytes := Nat.mul_le_mul_right _ h
    rw [Nat.add_mul] at this; omega

/-- Reading a word after a word write. -/
theorem Memory.word_setWord (w : Width) (m : Memory) (j k v : Nat) :
    (m.setWord w k v).word w j = if j = k then v % 2 ^ w.bits else m.word w j := by
  split
  · next h => rw [h, Memory.word_setWord_self]
  · next h => exact Memory.word_setWord_of_ne h m v

theorem Memory.wf_setWord (h : m.wf) (w : Width) (k v : Nat) : (m.setWord w k v).wf :=
  Memory.wf_writeBytes h _ _ _

/-- Two canonical lists that read the same everywhere are the same list. -/
theorem Memory.eq_of_read_eq {m m' : Memory} (h : m.wf) (h' : m'.wf) (heq : ∀ a, m.read a = m'.read a) : m = m' := by
  have read_of_mem : ∀ {m : Memory}, m.wf → ∀ c ∈ m, m.read c.1 = c.2 := by
    intro m hm
    induction m with
    | nil => simp
    | cons d t ih =>
      intro c hc
      have hp := List.pairwise_cons.1 hm.1
      rw [Memory.read_cons]
      rcases List.mem_cons.1 hc with rfl | hc
      · simp
      · rw [if_neg (Nat.ne_of_lt (hp.1 c hc)), ih ⟨hp.2, fun e he => hm.2 e (List.mem_cons_of_mem _ he)⟩ c hc]
  have mem_of_read : ∀ {m : Memory} (a : Nat), m.read a ≠ 0 → (a, m.read a) ∈ m := by
    intro m a
    induction m with
    | nil => simp
    | cons d t ih =>
      rw [Memory.read_cons]
      split
      · next hd => intro _; rw [← hd]; exact List.mem_cons_self
      · intro hne; exact List.mem_cons_of_mem _ (ih hne)
  have sub : ∀ {m m' : Memory}, m.wf → (∀ a, m.read a = m'.read a) → ∀ c ∈ m, c ∈ m' := by
    intro m m' hm he c hc
    have h1 := read_of_mem hm c hc
    have h2 := mem_of_read (m := m') c.1 (by rw [← he, h1]; exact hm.2 c hc)
    rwa [← he, h1] at h2
  have hirr : ∀ {l : Memory}, l.Pairwise (fun c d => c.1 < d.1) → l.Nodup :=
    fun hl => hl.imp fun hlt he => by subst he; exact Nat.lt_irrefl _ hlt
  have hperm : m.Perm m' :=
    (List.perm_ext_iff_of_nodup (hirr h.1) (hirr h'.1)).2 fun c => ⟨sub h heq c, sub h' (fun a => (heq a).symm) c⟩
  refine hperm.eq_of_pairwise (fun c d _ _ h1 h2 => absurd h1 (Nat.lt_asymm h2)) h.1 h'.1

end Sys2Proof.Machine
end

