-- ==== Sys2Proof/Laws/State.lean ====
section
/-! SUPPORT. One lemma for each field of State under each update of a state, so that no proof unfolds a record update. -/

namespace Sys2Proof.Machine

/-! Sending a response. -/

@[simp] theorem State.respond_params (s : State) (code : BitVec 8) (res : Nat) : (s.respond code res).params = s.params := rfl
@[simp] theorem State.respond_buf (s : State) (code : BitVec 8) (res : Nat) : (s.respond code res).buf = s.buf := rfl
@[simp] theorem State.respond_taur (s : State) (code : BitVec 8) (res : Nat) : (s.respond code res).taur = s.taur := rfl
@[simp] theorem State.respond_numel (s : State) (code : BitVec 8) (res : Nat) : (s.respond code res).numel = s.numel := rfl
@[simp] theorem State.respond_nwords (s : State) (code : BitVec 8) (res : Nat) : (s.respond code res).nwords = s.nwords := rfl
@[simp] theorem State.respond_flt (s : State) (code : BitVec 8) (res : Nat) : (s.respond code res).flt = s.flt := rfl
@[simp] theorem State.respond_cause (s : State) (code : BitVec 8) (res : Nat) : (s.respond code res).cause = s.cause := rfl
@[simp] theorem State.respond_fopc (s : State) (code : BitVec 8) (res : Nat) : (s.respond code res).fopc = s.fopc := rfl
@[simp] theorem State.respond_foff (s : State) (code : BitVec 8) (res : Nat) : (s.respond code res).foff = s.foff := rfl
@[simp] theorem State.respond_input (s : State) (code : BitVec 8) (res : Nat) : (s.respond code res).input = s.input := rfl
@[simp] theorem State.respond_responses (s : State) (code : BitVec 8) (res : Nat) : (s.respond code res).responses = s.responses ++ [{ code := code, res := BitVec.ofNat 64 res }] := rfl

/-! Taking a fault (R125). -/

@[simp] theorem State.raiseFault_params (s : State) (c : Cause) (opc : BitVec 8) (off : BitVec 32) : (s.raiseFault c opc off).params = s.params := rfl
@[simp] theorem State.raiseFault_buf (s : State) (c : Cause) (opc : BitVec 8) (off : BitVec 32) : (s.raiseFault c opc off).buf = s.buf := rfl
@[simp] theorem State.raiseFault_taur (s : State) (c : Cause) (opc : BitVec 8) (off : BitVec 32) : (s.raiseFault c opc off).taur = s.taur := rfl
@[simp] theorem State.raiseFault_numel (s : State) (c : Cause) (opc : BitVec 8) (off : BitVec 32) : (s.raiseFault c opc off).numel = s.numel := rfl
@[simp] theorem State.raiseFault_nwords (s : State) (c : Cause) (opc : BitVec 8) (off : BitVec 32) : (s.raiseFault c opc off).nwords = s.nwords := rfl
@[simp] theorem State.raiseFault_flt (s : State) (c : Cause) (opc : BitVec 8) (off : BitVec 32) : (s.raiseFault c opc off).flt = true := rfl
@[simp] theorem State.raiseFault_cause (s : State) (c : Cause) (opc : BitVec 8) (off : BitVec 32) : (s.raiseFault c opc off).cause = c.code := rfl
@[simp] theorem State.raiseFault_fopc (s : State) (c : Cause) (opc : BitVec 8) (off : BitVec 32) : (s.raiseFault c opc off).fopc = opc := rfl
@[simp] theorem State.raiseFault_foff (s : State) (c : Cause) (opc : BitVec 8) (off : BitVec 32) : (s.raiseFault c opc off).foff = off := rfl
@[simp] theorem State.raiseFault_input (s : State) (c : Cause) (opc : BitVec 8) (off : BitVec 32) : (s.raiseFault c opc off).input = s.input := rfl
@[simp] theorem State.raiseFault_responses (s : State) (c : Cause) (opc : BitVec 8) (off : BitVec 32) : (s.raiseFault c opc off).responses = s.responses ++ [{ code := c.code, res := 0 }] := rfl

/-! The reset state (R30). -/

@[simp] theorem State.resetOf_params (p : Params) : (State.resetOf p).params = p := rfl
@[simp] theorem State.resetOf_buf (p : Params) : (State.resetOf p).buf = [] := rfl
@[simp] theorem State.resetOf_taur (p : Params) : (State.resetOf p).taur = 0 := rfl
@[simp] theorem State.resetOf_numel (p : Params) : (State.resetOf p).numel = 0 := rfl
@[simp] theorem State.resetOf_nwords (p : Params) : (State.resetOf p).nwords = 0 := rfl
@[simp] theorem State.resetOf_flt (p : Params) : (State.resetOf p).flt = false := rfl
@[simp] theorem State.resetOf_cause (p : Params) : (State.resetOf p).cause = 0 := rfl
@[simp] theorem State.resetOf_fopc (p : Params) : (State.resetOf p).fopc = 0 := rfl
@[simp] theorem State.resetOf_foff (p : Params) : (State.resetOf p).foff = 0 := rfl
@[simp] theorem State.resetOf_input (p : Params) : (State.resetOf p).input = [] := rfl
@[simp] theorem State.resetOf_responses (p : Params) : (State.resetOf p).responses = [] := rfl

/-! The reset input (R140). -/

@[simp] theorem State.resetInput_params (s : State) : (s.resetInput).params = s.params := rfl
@[simp] theorem State.resetInput_buf (s : State) : (s.resetInput).buf = [] := rfl
@[simp] theorem State.resetInput_taur (s : State) : (s.resetInput).taur = 0 := rfl
@[simp] theorem State.resetInput_numel (s : State) : (s.resetInput).numel = 0 := rfl
@[simp] theorem State.resetInput_nwords (s : State) : (s.resetInput).nwords = 0 := rfl
@[simp] theorem State.resetInput_flt (s : State) : (s.resetInput).flt = false := rfl
@[simp] theorem State.resetInput_cause (s : State) : (s.resetInput).cause = 0 := rfl
@[simp] theorem State.resetInput_fopc (s : State) : (s.resetInput).fopc = 0 := rfl
@[simp] theorem State.resetInput_foff (s : State) : (s.resetInput).foff = 0 := rfl
@[simp] theorem State.resetInput_input (s : State) : (s.resetInput).input = s.input := rfl
@[simp] theorem State.resetInput_responses (s : State) : (s.resetInput).responses = s.responses := rfl

/-! A new array (R102). -/

@[simp] theorem State.construct_params (s : State) (n tau nw : Nat) : (s.construct n tau nw).params = s.params := rfl
@[simp] theorem State.construct_buf (s : State) (n tau nw : Nat) : (s.construct n tau nw).buf = [] := rfl
@[simp] theorem State.construct_taur (s : State) (n tau nw : Nat) : (s.construct n tau nw).taur = BitVec.ofNat 7 tau := rfl
@[simp] theorem State.construct_numel (s : State) (n tau nw : Nat) : (s.construct n tau nw).numel = BitVec.ofNat 32 n := rfl
@[simp] theorem State.construct_nwords (s : State) (n tau nw : Nat) : (s.construct n tau nw).nwords = BitVec.ofNat 32 nw := rfl
@[simp] theorem State.construct_flt (s : State) (n tau nw : Nat) : (s.construct n tau nw).flt = s.flt := rfl
@[simp] theorem State.construct_cause (s : State) (n tau nw : Nat) : (s.construct n tau nw).cause = s.cause := rfl
@[simp] theorem State.construct_fopc (s : State) (n tau nw : Nat) : (s.construct n tau nw).fopc = s.fopc := rfl
@[simp] theorem State.construct_foff (s : State) (n tau nw : Nat) : (s.construct n tau nw).foff = s.foff := rfl
@[simp] theorem State.construct_input (s : State) (n tau nw : Nat) : (s.construct n tau nw).input = s.input := rfl
@[simp] theorem State.construct_responses (s : State) (n tau nw : Nat) : (s.construct n tau nw).responses = s.responses := rfl

/-! A packet placed on the command port. -/

@[simp] theorem State.placePacket_params (s : State) (nbits w : Nat) : (s.placePacket nbits w).params = s.params := rfl
@[simp] theorem State.placePacket_buf (s : State) (nbits w : Nat) : (s.placePacket nbits w).buf = s.buf := rfl
@[simp] theorem State.placePacket_taur (s : State) (nbits w : Nat) : (s.placePacket nbits w).taur = s.taur := rfl
@[simp] theorem State.placePacket_numel (s : State) (nbits w : Nat) : (s.placePacket nbits w).numel = s.numel := rfl
@[simp] theorem State.placePacket_nwords (s : State) (nbits w : Nat) : (s.placePacket nbits w).nwords = s.nwords := rfl
@[simp] theorem State.placePacket_flt (s : State) (nbits w : Nat) : (s.placePacket nbits w).flt = s.flt := rfl
@[simp] theorem State.placePacket_cause (s : State) (nbits w : Nat) : (s.placePacket nbits w).cause = s.cause := rfl
@[simp] theorem State.placePacket_fopc (s : State) (nbits w : Nat) : (s.placePacket nbits w).fopc = s.fopc := rfl
@[simp] theorem State.placePacket_foff (s : State) (nbits w : Nat) : (s.placePacket nbits w).foff = s.foff := rfl
@[simp] theorem State.placePacket_input (s : State) (nbits w : Nat) : (s.placePacket nbits w).input = .command (BitVec.ofNat 128 (w % 2 ^ nbits)) :: s.input := rfl
@[simp] theorem State.placePacket_responses (s : State) (nbits w : Nat) : (s.placePacket nbits w).responses = s.responses := rfl

end Sys2Proof.Machine
end

