-- ==== Sys2Proof/Laws/Ops.lean ====
section
/-! SUPPORT. What each shared operation can do, said once: words, blocks, the halted check, the bit stream as a number. -/

namespace Sys2Proof.Machine

variable {s t : State} {w : Width} {i len n k : Nat}

/-! Words. -/

theorem State.memRead_of_lt (h : k < s.nwords.toNat) : s.memRead k = .ok (s.word k) := if_pos h

theorem State.memWrite_of_lt (h : k < s.nwords.toNat) (v : Nat) :
    s.memWrite k v = .ok { s with buf := s.buf.setWord s.params.width k v } := if_pos h

/-- All that a MemRead can answer (R41). -/
theorem State.memRead_eq_ok {v : Nat} : s.memRead k = .ok v ↔ k < s.nwords.toNat ∧ v = s.word k := by
  unfold State.memRead
  split <;> simp_all [eq_comm]

/-- All that a MemWrite can answer (R41). -/
theorem State.memWrite_eq_ok {v : Nat} :
    s.memWrite k v = .ok t ↔ k < s.nwords.toNat ∧ t = { s with buf := s.buf.setWord s.params.width k v } := by
  unfold State.memWrite
  split <;> simp_all [eq_comm]

/-! Stream bits. -/

theorem bitPos_lt (w : Width) (n : Nat) : bitPos w n < w.bits := Nat.mod_lt _ w.bits_pos

theorem wordIndex_mul_add_bitPos (w : Width) (n : Nat) : wordIndex w n * w.bits + bitPos w n = n := by
  rw [Nat.mul_comm]; exact Nat.div_add_mod _ _

/-- Splitting a stream bit number into word and position, the other way round. -/
theorem wordIndex_bitPos_of_eq {p : Nat} (hp : p < w.bits) (h : n = k * w.bits + p) :
    wordIndex w n = k ∧ bitPos w n = p := by
  subst h
  unfold wordIndex bitPos
  rw [Nat.mul_comm k, Nat.mul_add_div w.bits_pos, Nat.mul_add_mod, Nat.div_eq_of_lt hp, Nat.mod_eq_of_lt hp]
  exact ⟨rfl, rfl⟩

theorem Memory.bit_of_eq {p : Nat} (hp : p < w.bits) (h : n = k * w.bits + p) (m : Memory) :
    m.bit w n = (m.word w k).testBit p := by
  obtain ⟨h1, h2⟩ := wordIndex_bitPos_of_eq hp h
  rw [Memory.bit, h1, h2]

/-- A stream bit after a word write. -/
theorem Memory.bit_setWord (w : Width) (m : Memory) (k v n : Nat) :
    (m.setWord w k v).bit w n = if wordIndex w n = k then v.testBit (bitPos w n) else m.bit w n := by
  unfold Memory.bit
  rw [Memory.word_setWord]
  split
  · simp [Nat.testBit_mod_two_pow, bitPos_lt]
  · rfl

/-- A fresh buffer holds no set bit. -/
theorem Memory.bit_nil (w : Width) (n : Nat) : Memory.bit w [] n = false := by
  simp [Memory.bit, Memory.word_nil]

theorem Memory.bits_lt (w : Width) (m : Memory) (k : Nat) : m.bits w k < 2 ^ (k * w.bits) := by
  induction k with
  | zero => simp [Memory.bits]
  | succ k ih =>
    have hw : m.word w k + 1 ≤ 2 ^ w.bits := Memory.word_lt w m k
    have := Nat.mul_le_mul_right (2 ^ (k * w.bits)) hw
    rw [Memory.bits, Nat.add_mul, Nat.one_mul, pow_add]
    rw [Nat.add_mul, Nat.one_mul] at this
    rw [Nat.mul_comm (2 ^ (k * w.bits))]
    omega

/-- `Bits(BUF)` is the bit stream read as a number (R42). -/
theorem Memory.testBit_bits (w : Width) (m : Memory) (k n : Nat) :
    (m.bits w k).testBit n = (decide (n < k * w.bits) && m.bit w n) := by
  induction k with
  | zero => simp [Memory.bits]
  | succ k ih =>
    rw [Memory.bits, Nat.add_comm, Nat.mul_comm, Nat.testBit_two_pow_mul_add _ (Memory.bits_lt w m k)]
    have hw := w.bits_pos
    split
    · next h => rw [ih]; simp [h, Nat.add_mul, show n < k * w.bits + w.bits by omega]
    · next h =>
      by_cases h' : n < (k + 1) * w.bits
      · rw [Nat.add_mul, Nat.one_mul] at h'
        rw [Memory.bit_of_eq (k := k) (p := n - k * w.bits) (by omega) (by omega)]
        simp [Nat.add_mul, h']
      · have : 2 ^ w.bits ≤ 2 ^ (n - k * w.bits) := Nat.pow_le_pow_right (by decide) (by
          rw [Nat.add_mul] at h'; omega)
        rw [Nat.testBit_lt_two_pow (Nat.lt_of_lt_of_le (Memory.word_lt w m k) this)]
        simp [h']

/-! Masks. -/

/-- Both arms of `mask` give `2^len - 1` (R10). -/
theorem mask_eq (w : Width) (len : Nat) : mask w len = 2 ^ len - 1 := by
  unfold mask
  split
  · next h => rw [h]
  · rw [Nat.one_shiftLeft]

theorem testBit_mask (w : Width) (len j : Nat) : (mask w len).testBit j = decide (j < len) := by
  rw [mask_eq, Nat.testBit_two_pow_sub_one]

theorem testBit_notWord {a : Nat} (h : a < 2 ^ w.bits) (j : Nat) :
    (notWord w a).testBit j = (decide (j < w.bits) && !a.testBit j) := by
  rw [notWord, Nat.sub_sub, Nat.add_comm 1 a, Nat.testBit_two_pow_sub_succ h]

theorem testBit_shlWord (w : Width) (a sh j : Nat) :
    (shlWord w a sh).testBit j = (decide (j < w.bits) && (decide (sh ≤ j) && a.testBit (j - sh))) := by
  rw [shlWord, Nat.testBit_mod_two_pow, Nat.testBit_shiftLeft]

theorem shlWord_lt (w : Width) (a sh : Nat) : shlWord w a sh < 2 ^ w.bits :=
  Nat.mod_lt _ (Nat.two_pow_pos _)

/-- A mask shifted up inside its word stays inside it. -/
theorem mask_shiftLeft_lt {sh : Nat} (h : sh + len ≤ w.bits) : mask w len <<< sh < 2 ^ w.bits := by
  rw [mask_eq, Nat.shiftLeft_eq]
  have h1 : (2 ^ len - 1) * 2 ^ sh < 2 ^ len * 2 ^ sh :=
    Nat.mul_lt_mul_of_pos_right (Nat.sub_lt (Nat.two_pow_pos _) Nat.one_pos) (Nat.two_pow_pos _)
  rw [← pow_add] at h1
  exact Nat.lt_of_lt_of_le h1 (Nat.pow_le_pow_right (by decide) (by omega))

theorem mask_shiftRight_lt {sh : Nat} (h : len ≤ w.bits) : mask w len >>> sh < 2 ^ w.bits := by
  rw [mask_eq]
  refine Nat.lt_of_le_of_lt (Nat.shiftRight_le _ _) ?_
  exact Nat.lt_of_lt_of_le (Nat.sub_lt (Nat.two_pow_pos _) Nat.one_pos) (Nat.pow_le_pow_right (by decide) h)

/-! Ranges: a block in range lies in words that exist (R90). -/

theorem State.wordIndex_lt (h : i < s.bitCount) : wordIndex s.params.width i < s.nwords.toNat :=
  Nat.div_lt_of_lt_mul (by rw [Nat.mul_comm]; exact h)

theorem State.wordIndex_succ_lt (h : i + len ≤ s.bitCount) (hs : straddles s.params.width i len) :
    wordIndex s.params.width i + 1 < s.nwords.toNat := by
  have h1 := wordIndex_mul_add_bitPos s.params.width i
  have h2 : (wordIndex s.params.width i + 1) * s.params.width.bits < s.nwords.toNat * s.params.width.bits := by
    rw [Nat.add_mul, Nat.one_mul]
    unfold State.bitCount at h
    unfold straddles at hs
    omega
  exact Nat.lt_of_mul_lt_mul_right h2

/-! Blocks. -/

/-- Reading a block in range: bit `j` of the value is stream bit `i + j`, and nothing above `len` (R91, R92). -/
theorem State.readBlock_spec (hl : legalLen s.params.width len) (hr : i + len ≤ s.bitCount) :
    ∃ v, s.readBlock i len = .ok v ∧ ∀ j, v.testBit j = (decide (j < len) && s.bit (i + j)) := by
  have hk := State.wordIndex_lt (s := s) (i := i) (by unfold legalLen at hl; omega)
  have hi := wordIndex_mul_add_bitPos s.params.width i
  have hp := bitPos_lt s.params.width i
  unfold legalLen at hl
  unfold State.readBlock State.bit
  simp only [if_pos hl, State.memRead_of_lt hk]
  by_cases hs : straddles s.params.width i len
  · rw [if_pos hs, State.memRead_of_lt (State.wordIndex_succ_lt hr hs)]
    refine ⟨_, rfl, fun j => ?_⟩
    unfold straddles at hs
    rw [Nat.testBit_and, testBit_mask, Nat.testBit_or, Nat.testBit_shiftRight, testBit_shlWord, Bool.and_comm]
    by_cases hj : j < len
    · simp only [hj, decide_true, Bool.true_and]
      by_cases hlow : bitPos s.params.width i + j < s.params.width.bits
      · rw [Memory.bit_of_eq (k := wordIndex s.params.width i) hlow (by omega)]
        simp [show ¬ (s.params.width.bits - bitPos s.params.width i ≤ j) by omega, State.word]
      · rw [Memory.bit_of_eq (k := wordIndex s.params.width i + 1)
          (p := j - (s.params.width.bits - bitPos s.params.width i)) (by omega) (by rw [Nat.add_mul, Nat.one_mul]; omega)]
        rw [Nat.testBit_lt_two_pow (x := s.word (wordIndex s.params.width i))
          (Nat.lt_of_lt_of_le (Memory.word_lt _ _ _) (Nat.pow_le_pow_right (by decide) (Nat.le_of_not_lt hlow)))]
        simp [show j < s.params.width.bits by omega, show s.params.width.bits - bitPos s.params.width i ≤ j by omega,
          State.word]
    · simp [hj]
  · rw [if_neg hs]
    refine ⟨_, rfl, fun j => ?_⟩
    unfold straddles at hs
    rw [Nat.testBit_and, testBit_mask, Nat.testBit_shiftRight, Bool.and_comm]
    by_cases hj : j < len
    · rw [Memory.bit_of_eq (k := wordIndex s.params.width i) (p := bitPos s.params.width i + j) (by omega) (by omega)]
      rfl
    · simp [hj]

/-- What a buffer looks like after `len` bits from `i` were replaced by those of `value` (R94), bytes outside the stored
words untouched (R45), the canonical form and the extent of the list kept. -/
structure BlockWritten (w : Width) (m m' : Memory) (i len value : Nat) : Prop where
  bit : ∀ n, m'.bit w n = if i ≤ n ∧ n < i + len then value.testBit (n - i) else m.bit w n
  read : ∀ a, ¬ inStoredBytes w i len a → m'.read a = m.read a
  wf : m.wf → m'.wf
  mem : ∀ c ∈ m', inStoredBytes w i len c.1 ∨ c ∈ m

/-- Writing a block in range changes BUF alone, and there the block alone (R93, R94). -/
theorem State.writeBlock_spec (value : Nat) (hl : legalLen s.params.width len) (hr : i + len ≤ s.bitCount) :
    ∃ b, s.writeBlock i len value = .ok { s with buf := b } ∧ BlockWritten s.params.width s.buf b i len value := by
  have hk := State.wordIndex_lt (s := s) (i := i) (by unfold legalLen at hl; omega)
  have hi := wordIndex_mul_add_bitPos s.params.width i
  have hp := bitPos_lt s.params.width i
  unfold legalLen at hl
  unfold State.writeBlock
  simp only [if_pos hl, State.memRead_of_lt hk]
  by_cases hs : straddles s.params.width i len
  · have hk1 := State.wordIndex_succ_lt hr hs
    simp only [if_pos hs, State.memRead_of_lt hk1]
    simp only [bind, Except.bind, State.memWrite, if_pos hk, if_pos hk1]
    refine ⟨_, rfl, ?_, ?_, fun h => Memory.wf_setWord (Memory.wf_setWord h _ _ _) _ _ _, ?_⟩
    · intro n
      have hn := wordIndex_mul_add_bitPos s.params.width n
      have hpn := bitPos_lt s.params.width n
      simp only [Memory.bit_setWord]
      unfold straddles at hs
      by_cases h1 : wordIndex s.params.width n = wordIndex s.params.width i + 1
      · rw [if_pos h1, Nat.testBit_or, Nat.testBit_and, testBit_notWord (mask_shiftRight_lt hl.2),
          Nat.testBit_shiftRight, testBit_mask, Nat.testBit_shiftRight, Nat.testBit_mod_two_pow]
        rw [h1, Nat.add_mul, Nat.one_mul] at hn
        by_cases h2 : s.params.width.bits - bitPos s.params.width i + bitPos s.params.width n < len
        · rw [if_pos (by omega)]
          simp only [h2, decide_true, hpn]
          simp only [Bool.not_true, Bool.and_false, Bool.false_or, Bool.true_and]
          congr 1; omega
        · rw [if_neg (by omega)]
          simp [h2, hpn, State.word, Memory.bit, h1]
      · rw [if_neg h1]
        by_cases h0 : wordIndex s.params.width n = wordIndex s.params.width i
        · rw [if_pos h0, Nat.testBit_or, Nat.testBit_and, testBit_notWord (shlWord_lt _ _ _), testBit_shlWord,
            testBit_shlWord, testBit_mask, Nat.testBit_mod_two_pow]
          rw [h0] at hn
          by_cases h2 : bitPos s.params.width i ≤ bitPos s.params.width n
          · rw [if_pos (by omega)]
            have : bitPos s.params.width n - bitPos s.params.width i < len := by omega
            simp only [h2, hpn, this, decide_true]
            simp only [Bool.not_true, Bool.and_false, Bool.false_or, Bool.true_and, Bool.and_true]
            congr 1; omega
          · rw [if_neg (by omega)]
            simp [h2, hpn, State.word, Memory.bit, h0]
        · rw [if_neg h0, if_neg]
          rintro ⟨ha, hb⟩
          have : wordIndex s.params.width n < wordIndex s.params.width i ∨
              wordIndex s.params.width i + 2 ≤ wordIndex s.params.width n := by omega
          rcases this with h | h
          · have := Nat.mul_le_mul_right s.params.width.bits (Nat.succ_le_of_lt h)
            rw [Nat.succ_mul] at this; omega
          · have := Nat.mul_le_mul_right s.params.width.bits h
            rw [Nat.add_mul] at this; omega
    · intro a ha
      unfold inStoredBytes at ha
      rw [Memory.read_setWord_of_outside (by by_contra hc; exact ha (.inr ⟨hs, by omega, by omega⟩)),
        Memory.read_setWord_of_outside (by by_contra hc; exact ha (.inl ⟨by omega, by omega⟩))]
    · intro c hc
      unfold inStoredBytes
      rcases Memory.mem_writeBytes hc with h | h
      · exact .inl (.inr ⟨hs, h⟩)
      · rcases Memory.mem_writeBytes h with h | h
        · exact .inl (.inl h)
        · exact .inr h
  · simp only [if_neg hs]
    simp only [bind, Except.bind, State.memWrite_of_lt hk]
    refine ⟨_, rfl, ?_, ?_, fun h => Memory.wf_setWord h _ _ _, ?_⟩
    · intro n
      have hn := wordIndex_mul_add_bitPos s.params.width n
      have hpn := bitPos_lt s.params.width n
      unfold straddles at hs
      rw [Memory.bit_setWord]
      by_cases h0 : wordIndex s.params.width n = wordIndex s.params.width i
      · rw [if_pos h0, Nat.testBit_or, Nat.testBit_and, testBit_notWord (mask_shiftLeft_lt (by omega)),
          Nat.testBit_shiftLeft, Nat.testBit_shiftLeft, testBit_mask, Nat.testBit_mod_two_pow]
        rw [h0] at hn
        by_cases h2 : bitPos s.params.width i ≤ bitPos s.params.width n ∧
            bitPos s.params.width n < bitPos s.params.width i + len
        · rw [if_pos (by omega)]
          have : bitPos s.params.width n - bitPos s.params.width i < len := by omega
          simp only [h2.1, hpn, this, decide_true]
          simp only [Bool.not_true, Bool.and_false, Bool.false_or, Bool.true_and, Bool.and_true]
          congr 1; omega
        · rw [if_neg (by omega)]
          have : ¬ (bitPos s.params.width i ≤ bitPos s.params.width n ∧
            bitPos s.params.width n - bitPos s.params.width i < len) := by omega
          by_cases h3 : bitPos s.params.width i ≤ bitPos s.params.width n
          · have h4 : ¬ bitPos s.params.width n - bitPos s.params.width i < len := by omega
            simp [h3, h4, hpn, State.word, Memory.bit, h0]
          · simp [h3, hpn, State.word, Memory.bit, h0]
      · rw [if_neg h0, if_neg]
        rintro ⟨ha, hb⟩
        rcases Nat.lt_or_gt_of_ne h0 with h | h
        · have := Nat.mul_le_mul_right s.params.width.bits (Nat.succ_le_of_lt h)
          rw [Nat.succ_mul] at this; omega
        · have := Nat.mul_le_mul_right s.params.width.bits (Nat.succ_le_of_lt h)
          rw [Nat.succ_mul] at this; omega
    · intro a ha
      unfold inStoredBytes at ha
      exact Memory.read_setWord_of_outside (by by_contra hc; exact ha (.inl ⟨by omega, by omega⟩))
    · intro c hc
      unfold inStoredBytes
      rcases Memory.mem_writeBytes hc with h | h
      · exact .inl (.inl h)
      · exact .inr h

/-- The read-modify-write of one word, in range. -/
theorem State.updateWord_of_lt (h : i < s.bitCount) (f : Nat → Nat) :
    s.updateWord i f = .ok { s with
      buf := s.buf.setWord s.params.width (wordIndex s.params.width i) (f (s.word (wordIndex s.params.width i))) } := by
  simp only [State.updateWord, State.memRead_of_lt (State.wordIndex_lt h), bind, Except.bind,
    State.memWrite_of_lt (State.wordIndex_lt h)]

/-! The halted check (R126). -/

theorem State.unlessHalted_of_running (h : s.flt = false) (run : Result) : s.unlessHalted run = run := by
  simp [State.unlessHalted, h]

theorem State.unlessHalted_of_halted (h : s.flt = true) (run : Result) :
    s.unlessHalted run = .next (s.respond codeHalted 0) := by
  simp [State.unlessHalted, h, State.answerHalted]

end Sys2Proof.Machine
end

