-- ==== Sys2Proof/Laws/Exec.lean ====
section
/-! SUPPORT. What a command can do, said once: the inversion of `exec`, and of the block operations in any state. -/

namespace Sys2Proof.Machine

variable {s t : State} {i len value : Nat}

theorem State.respond_eq (s : State) (code : BitVec 8) (v : Nat) :
    s.respond code v = s.withResponse code (BitVec.ofNat 64 v) := rfl

theorem State.raiseFault_eq (s : State) (c : Cause) (opc : BitVec 8) (off : BitVec 32) :
    s.raiseFault c opc off = s.haltedBy c.code opc off := rfl

theorem State.memWrite_inv {k v : Nat} (h : s.memWrite k v = .ok t) :
    ∃ b, t = { s with buf := b } ∧ (s.buf.wf → b.wf) ∧
      ∀ c ∈ b, c.1 < s.nwords.toNat * s.params.width.bytes ∨ c ∈ s.buf := by
  obtain ⟨hk, rfl⟩ := State.memWrite_eq_ok.1 h
  refine ⟨_, rfl, fun hw => Memory.wf_setWord hw _ _ _, fun c hc => ?_⟩
  rcases Memory.mem_writeBytes hc with h | h
  · left
    have := Nat.mul_le_mul_right s.params.width.bytes (Nat.succ_le_of_lt hk)
    rw [Nat.succ_mul] at this
    omega
  · exact .inr h

/-- Whatever the state, a block write that ends changes BUF alone, and lists nothing beyond the accessible words. -/
theorem State.writeBlock_inv (h : s.writeBlock i len value = .ok t) :
    ∃ b, t = { s with buf := b } ∧ (s.buf.wf → b.wf) ∧
      ∀ c ∈ b, c.1 < s.nwords.toNat * s.params.width.bytes ∨ c ∈ s.buf := by
  unfold State.writeBlock at h
  dsimp only at h
  split at h
  · split at h
    · simp only [bind, Except.bind] at h
      split at h
      · simp at h
      · split at h
        · simp at h
        · split at h
          · simp at h
          · next s1 h1 =>
            obtain ⟨b1, rfl, hw1, hm1⟩ := State.memWrite_inv h1
            obtain ⟨b2, rfl, hw2, hm2⟩ := State.memWrite_inv h
            refine ⟨b2, rfl, fun hw => hw2 (hw1 hw), fun c hc => ?_⟩
            rcases hm2 c hc with h | h
            · exact .inl h
            · exact hm1 c h
    · simp only [bind, Except.bind] at h
      split at h
      · simp at h
      · exact State.memWrite_inv h
  · simp at h

theorem State.updateWord_inv {f : Nat → Nat} (h : s.updateWord i f = .ok t) :
    ∃ b, t = { s with buf := b } ∧ (s.buf.wf → b.wf) ∧
      ∀ c ∈ b, c.1 < s.nwords.toNat * s.params.width.bytes ∨ c ∈ s.buf := by
  simp only [State.updateWord, bind, Except.bind] at h
  split at h
  · simp at h
  · exact State.memWrite_inv h

theorem answerState_eq_next {x : Except Fault State} (h : answerState x = .next t) :
    ∃ u, x = .ok u ∧ t = u.withResponse 0 0 := by
  unfold answerState at h
  split at h
  · next u => exact ⟨u, rfl, by injection h with h; exact h.symm⟩
  · simp at h

theorem State.answerValue_eq_next {x : Except Fault Nat} (h : s.answerValue x = .next t) :
    ∃ v, x = .ok v ∧ t = s.withResponse 0 (BitVec.ofNat 64 v) := by
  unfold State.answerValue at h
  split at h
  · next v => exact ⟨v, rfl, by injection h with h; exact h.symm⟩
  · simp at h

/-- The operand a command carries in its OFF field, 0 where it has none (R64). -/
def offOperand (c : Instr) : Nat :=
  match c with
  | .setbit i => i
  | .resetbit i => i
  | .testbit i => i
  | .getblock i _ => i
  | .setblock i _ _ => i
  | .construct n _ => n
  | .release => 0
  | .aget index => index
  | .aset index _ => index
  | .getlen => 0
  | .gettau => 0
  | .status => 0

/-- What a command that ends has done to the state. -/
inductive Effect (c : Instr) (s t : State) : Prop where
  /-- The unit was halted: it answered Halted. -/
  | halted (hf : s.flt = true) (hc : c ≠ .status) (ht : t = s.withResponse 8 0)
  /-- It answered OK with a value and changed nothing else. -/
  | value (hf : s.flt = false ∨ c = .status) (v : BitVec 64) (ht : t = s.withResponse 0 v)
  /-- It wrote BUF and answered OK. -/
  | wrote (hf : s.flt = false) (hc : c.isWrite = true) (b : Memory) (hw : s.buf.wf → b.wf)
      (hm : ∀ x ∈ b, x.1 < s.nwords.toNat * s.params.width.bytes ∨ x ∈ s.buf)
      (ht : t = State.withResponse { s with buf := b } 0 0)
  /-- CONSTRUCT made a new array. -/
  | constructed (hf : s.flt = false) (n tau : Nat) (hc : c = .construct n tau) (hl : legalLen s.params.width tau)
      (hcap : bufferWords s.params.width n tau ≤ s.params.maxWords)
      (ht : t = (s.construct n tau (bufferWords s.params.width n tau)).withResponse 0 0)
  /-- RELEASE emptied the unit. -/
  | released (hf : s.flt = false) (hc : c = .release)
      (ht : t = State.withResponse { s with nwords := 0, taur := 0, numel := 0, buf := [] } 0 0)
  /-- It took a fault. -/
  | faulted (hf : s.flt = false) (k : Cause)
      (ht : t = s.haltedBy k.code c.opcode (BitVec.ofNat 32 (offOperand c)))

theorem State.unlessHalted_effect {c : Instr} {run : Result} (hc : c ≠ .status) (h : s.unlessHalted run = .next t)
    (hrun : s.flt = false → run = .next t → Effect c s t) : Effect c s t := by
  cases hf : s.flt with
  | true =>
    rw [State.unlessHalted_of_halted hf] at h
    injection h with h
    exact .halted hf hc h.symm
  | false => exact hrun hf (by rwa [State.unlessHalted_of_running hf] at h)

theorem State.faultOf_effect {c : Instr} {k : Cause} (hf : s.flt = false)
    (h : s.faultOf k c (offOperand c) = .next t) : Effect c s t := by
  injection h with h
  exact .faulted hf k h.symm

/-- The inversion of `exec`: if a command ends, it has had one of these effects. -/
theorem exec_effect {c : Instr} (h : exec c s = .next t) : Effect c s t := by
  cases c with
  | setbit i =>
    refine State.unlessHalted_effect (by simp) h fun hf h => ?_
    split at h
    · obtain ⟨u, hu, rfl⟩ := answerState_eq_next h
      obtain ⟨b, rfl, hw, hm⟩ := State.updateWord_inv hu
      exact .wrote hf rfl b hw hm rfl
    · exact State.faultOf_effect hf h
  | resetbit i =>
    refine State.unlessHalted_effect (by simp) h fun hf h => ?_
    split at h
    · obtain ⟨u, hu, rfl⟩ := answerState_eq_next h
      obtain ⟨b, rfl, hw, hm⟩ := State.updateWord_inv hu
      exact .wrote hf rfl b hw hm rfl
    · exact State.faultOf_effect hf h
  | testbit i =>
    refine State.unlessHalted_effect (by simp) h fun hf h => ?_
    split at h
    · obtain ⟨v, -, rfl⟩ := State.answerValue_eq_next h
      exact .value (.inl hf) _ rfl
    · exact State.faultOf_effect hf h
  | getblock i len =>
    refine State.unlessHalted_effect (by simp) h fun hf h => ?_
    split at h
    · split at h
      · obtain ⟨v, -, rfl⟩ := State.answerValue_eq_next h
        exact .value (.inl hf) _ rfl
      · exact State.faultOf_effect hf h
    · exact State.faultOf_effect hf h
  | setblock i len value =>
    refine State.unlessHalted_effect (by simp) h fun hf h => ?_
    split at h
    · split at h
      · obtain ⟨u, hu, rfl⟩ := answerState_eq_next h
        obtain ⟨b, rfl, hw, hm⟩ := State.writeBlock_inv hu
        exact .wrote hf rfl b hw hm rfl
      · exact State.faultOf_effect hf h
    · exact State.faultOf_effect hf h
  | construct n tau =>
    refine State.unlessHalted_effect (by simp) h fun hf h => ?_
    split at h
    · next hl =>
      split at h
      · next hcap =>
        obtain ⟨u, hu, rfl⟩ := answerState_eq_next h
        injection hu with hu
        exact .constructed hf n tau rfl hl hcap (hu ▸ rfl)
      · exact State.faultOf_effect hf h
    · exact State.faultOf_effect hf h
  | release =>
    refine State.unlessHalted_effect (by simp) h fun hf h => ?_
    obtain ⟨u, hu, rfl⟩ := answerState_eq_next h
    injection hu with hu
    exact .released hf rfl (hu ▸ rfl)
  | aget index =>
    refine State.unlessHalted_effect (by simp) h fun hf h => ?_
    split at h
    · obtain ⟨v, -, rfl⟩ := State.answerValue_eq_next h
      exact .value (.inl hf) _ rfl
    · exact State.faultOf_effect hf h
  | aset index value =>
    refine State.unlessHalted_effect (by simp) h fun hf h => ?_
    split at h
    · obtain ⟨u, hu, rfl⟩ := answerState_eq_next h
      obtain ⟨b, rfl, hw, hm⟩ := State.writeBlock_inv hu
      exact .wrote hf rfl b hw hm rfl
    · exact State.faultOf_effect hf h
  | getlen =>
    refine State.unlessHalted_effect (by simp) h fun hf h => ?_
    obtain ⟨v, -, rfl⟩ := State.answerValue_eq_next h
    exact .value (.inl hf) _ rfl
  | gettau =>
    refine State.unlessHalted_effect (by simp) h fun hf h => ?_
    obtain ⟨v, -, rfl⟩ := State.answerValue_eq_next h
    exact .value (.inl hf) _ rfl
  | status =>
    obtain ⟨v, -, rfl⟩ := State.answerValue_eq_next (s := s) (x := .ok s.statusWord) h
    exact .value (.inr rfl) _ rfl

end Sys2Proof.Machine
end

