-- ==== Sys2Proof/Laws/Decode.lean ====
section
/-! SUPPORT. The fields of a packet made from fields, and what a packet that decodes must look like. -/

namespace Sys2Proof

theorem toNat_append_eq {n m : Nat} (x : BitVec n) (y : BitVec m) : (x ++ y).toNat = x.toNat * 2 ^ m + y.toNat := by
  rw [BitVec.toNat_append, ← Nat.shiftLeft_add_eq_or_of_lt y.isLt, Nat.shiftLeft_eq]

theorem Packet.toNat_ofFields (val : BitVec 64) (off : BitVec 32) (len opc : BitVec 8) :
    (Packet.ofFields val off len opc).toNat =
      opc.toNat + 2 ^ 8 * len.toNat + 2 ^ 32 * off.toNat + 2 ^ 64 * val.toNat := by
  have := val.isLt; have := off.isLt; have := len.isLt; have := opc.isLt
  rw [Packet.ofFields, BitVec.toNat_setWidth]
  simp only [toNat_append_eq, BitVec.toNat_ofNat, Nat.zero_mod]
  omega

theorem Packet.opc_ofFields (val : BitVec 64) (off : BitVec 32) (len opc : BitVec 8) :
    (Packet.ofFields val off len opc).opc = opc := by
  have := opc.isLt
  apply BitVec.eq_of_toNat_eq
  rw [Packet.opc, BitVec.extractLsb'_toNat, Packet.toNat_ofFields, Nat.shiftRight_eq_div_pow]
  omega

theorem Packet.len_ofFields (val : BitVec 64) (off : BitVec 32) (len opc : BitVec 8) :
    (Packet.ofFields val off len opc).len = len := by
  have := opc.isLt; have := len.isLt
  apply BitVec.eq_of_toNat_eq
  rw [Packet.len, BitVec.extractLsb'_toNat, Packet.toNat_ofFields, Nat.shiftRight_eq_div_pow]
  omega

theorem Packet.rsv_ofFields (val : BitVec 64) (off : BitVec 32) (len opc : BitVec 8) :
    (Packet.ofFields val off len opc).rsv = 0 := by
  have := opc.isLt; have := len.isLt
  apply BitVec.eq_of_toNat_eq
  rw [Packet.rsv, BitVec.extractLsb'_toNat, Packet.toNat_ofFields, Nat.shiftRight_eq_div_pow]
  show _ = 0
  omega

theorem Packet.off_ofFields (val : BitVec 64) (off : BitVec 32) (len opc : BitVec 8) :
    (Packet.ofFields val off len opc).off = off := by
  have := opc.isLt; have := len.isLt; have := off.isLt
  apply BitVec.eq_of_toNat_eq
  rw [Packet.off, BitVec.extractLsb'_toNat, Packet.toNat_ofFields, Nat.shiftRight_eq_div_pow]
  omega

theorem Packet.val_ofFields (val : BitVec 64) (off : BitVec 32) (len opc : BitVec 8) :
    (Packet.ofFields val off len opc).val = val := by
  have := opc.isLt; have := len.isLt; have := off.isLt; have := val.isLt
  apply BitVec.eq_of_toNat_eq
  rw [Packet.val, BitVec.extractLsb'_toNat, Packet.toNat_ofFields, Nat.shiftRight_eq_div_pow]
  omega

/-- A packet whose RSV is 0 is the packet of its other fields. -/
theorem Packet.ofFields_self (c : Packet) (h : c.rsv = 0) : Packet.ofFields c.val c.off c.len c.opc = c := by
  apply BitVec.eq_of_toNat_eq
  have h' := congrArg BitVec.toNat h
  have := c.isLt
  rw [Packet.toNat_ofFields]
  simp only [Packet.rsv, Packet.val, Packet.off, Packet.len, Packet.opc, BitVec.extractLsb'_toNat,
    Nat.shiftRight_eq_div_pow, BitVec.ofNat_eq_ofNat, BitVec.toNat_ofNat] at *
  omega

/-! The checks of R65, and all that a packet that passes them can be. -/

theorem Packet.needRsv_eq_ok {c : Packet} {r : Except Reject Instr} {i : Instr} :
    c.needRsv r = .ok i ↔ c.rsv = 0 ∧ r = .ok i := by unfold Packet.needRsv; split <;> simp_all

theorem Packet.needLen_eq_ok {c : Packet} {r : Except Reject Instr} {i : Instr} :
    c.needLen r = .ok i ↔ c.len = 0 ∧ r = .ok i := by unfold Packet.needLen; split <;> simp_all

theorem Packet.needOff_eq_ok {c : Packet} {r : Except Reject Instr} {i : Instr} :
    c.needOff r = .ok i ↔ c.off = 0 ∧ r = .ok i := by unfold Packet.needOff; split <;> simp_all

theorem Packet.needVal_eq_ok {c : Packet} {r : Except Reject Instr} {i : Instr} :
    c.needVal r = .ok i ↔ c.val = 0 ∧ r = .ok i := by unfold Packet.needVal; split <;> simp_all

/-- The fields a packet must have to decode to a command: opcode, operands, zeros (R64, R65). -/
def fieldsOf (c : Packet) (i : Instr) : Prop :=
  c.opc = i.opcode ∧ c.rsv = 0 ∧
  match i with
  | .setbit j => c.val = 0 ∧ c.len = 0 ∧ j = c.off.toNat
  | .resetbit j => c.val = 0 ∧ c.len = 0 ∧ j = c.off.toNat
  | .testbit j => c.val = 0 ∧ c.len = 0 ∧ j = c.off.toNat
  | .getblock j len => c.val = 0 ∧ j = c.off.toNat ∧ len = c.len.toNat
  | .setblock j len value => j = c.off.toNat ∧ len = c.len.toNat ∧ value = c.val.toNat
  | .construct n tau => c.val = 0 ∧ n = c.off.toNat ∧ tau = c.len.toNat
  | .release => c.val = 0 ∧ c.off = 0 ∧ c.len = 0
  | .aget j => c.val = 0 ∧ c.len = 0 ∧ j = c.off.toNat
  | .aset j value => c.len = 0 ∧ j = c.off.toNat ∧ value = c.val.toNat
  | .getlen => c.val = 0 ∧ c.off = 0 ∧ c.len = 0
  | .gettau => c.val = 0 ∧ c.off = 0 ∧ c.len = 0
  | .status => c.val = 0 ∧ c.off = 0 ∧ c.len = 0

/-- What a packet that decodes looks like. -/
theorem decode_inv {c : Packet} {i : Instr} (h : decode c = .ok i) : fieldsOf c i := by
  rw [decode, Packet.needRsv_eq_ok] at h
  obtain ⟨hr, h⟩ := h
  unfold Packet.decodeFields at h
  by_cases ho : c.opc = 0x01
  · rw [if_pos ho, Packet.needLen_eq_ok, Packet.needVal_eq_ok] at h
    obtain ⟨h1, h2, h3⟩ := h
    injection h3 with h3
    subst h3
    exact ⟨ho, hr, h2, h1, rfl⟩
  rw [if_neg ho] at h
  clear ho
  by_cases ho : c.opc = 0x02
  · rw [if_pos ho, Packet.needLen_eq_ok, Packet.needVal_eq_ok] at h
    obtain ⟨h1, h2, h3⟩ := h
    injection h3 with h3
    subst h3
    exact ⟨ho, hr, h2, h1, rfl⟩
  rw [if_neg ho] at h
  clear ho
  by_cases ho : c.opc = 0x03
  · rw [if_pos ho, Packet.needLen_eq_ok, Packet.needVal_eq_ok] at h
    obtain ⟨h1, h2, h3⟩ := h
    injection h3 with h3
    subst h3
    exact ⟨ho, hr, h2, h1, rfl⟩
  rw [if_neg ho] at h
  clear ho
  by_cases ho : c.opc = 0x04
  · rw [if_pos ho, Packet.needVal_eq_ok] at h
    obtain ⟨h1, h3⟩ := h
    injection h3 with h3
    subst h3
    exact ⟨ho, hr, h1, rfl, rfl⟩
  rw [if_neg ho] at h
  clear ho
  by_cases ho : c.opc = 0x05
  · rw [if_pos ho] at h
    injection h with h
    subst h
    exact ⟨ho, hr, rfl, rfl, rfl⟩
  rw [if_neg ho] at h
  clear ho
  by_cases ho : c.opc = 0x08
  · rw [if_pos ho, Packet.needVal_eq_ok] at h
    obtain ⟨h1, h3⟩ := h
    injection h3 with h3
    subst h3
    exact ⟨ho, hr, h1, rfl, rfl⟩
  rw [if_neg ho] at h
  clear ho
  by_cases ho : c.opc = 0x09
  · rw [if_pos ho, Packet.needLen_eq_ok, Packet.needOff_eq_ok, Packet.needVal_eq_ok] at h
    obtain ⟨h1, h2, h3, h4⟩ := h
    injection h4 with h4
    subst h4
    exact ⟨ho, hr, h3, h2, h1⟩
  rw [if_neg ho] at h
  clear ho
  by_cases ho : c.opc = 0x0A
  · rw [if_pos ho, Packet.needLen_eq_ok, Packet.needVal_eq_ok] at h
    obtain ⟨h1, h2, h3⟩ := h
    injection h3 with h3
    subst h3
    exact ⟨ho, hr, h2, h1, rfl⟩
  rw [if_neg ho] at h
  clear ho
  by_cases ho : c.opc = 0x0B
  · rw [if_pos ho, Packet.needLen_eq_ok] at h
    obtain ⟨h1, h3⟩ := h
    injection h3 with h3
    subst h3
    exact ⟨ho, hr, h1, rfl, rfl⟩
  rw [if_neg ho] at h
  clear ho
  by_cases ho : c.opc = 0x0C
  · rw [if_pos ho, Packet.needLen_eq_ok, Packet.needOff_eq_ok, Packet.needVal_eq_ok] at h
    obtain ⟨h1, h2, h3, h4⟩ := h
    injection h4 with h4
    subst h4
    exact ⟨ho, hr, h3, h2, h1⟩
  rw [if_neg ho] at h
  clear ho
  by_cases ho : c.opc = 0x0D
  · rw [if_pos ho, Packet.needLen_eq_ok, Packet.needOff_eq_ok, Packet.needVal_eq_ok] at h
    obtain ⟨h1, h2, h3, h4⟩ := h
    injection h4 with h4
    subst h4
    exact ⟨ho, hr, h3, h2, h1⟩
  rw [if_neg ho] at h
  clear ho
  by_cases ho : c.opc = 0x0E
  · rw [if_pos ho, Packet.needLen_eq_ok, Packet.needOff_eq_ok, Packet.needVal_eq_ok] at h
    obtain ⟨h1, h2, h3, h4⟩ := h
    injection h4 with h4
    subst h4
    exact ⟨ho, hr, h3, h2, h1⟩
  rw [if_neg ho] at h
  clear ho
  simp at h

/-- A decoded packet's OFF bits are the command's OFF operand (R122: what FOFF records). -/
theorem Packet.off_of_decode {c : Packet} {i : Instr} (h : decode c = .ok i) :
    BitVec.ofNat 32 (Machine.offOperand i) = c.off := by
  have hf := decode_inv h
  cases i <;> simp only [fieldsOf] at hf <;> simp [Machine.offOperand, hf]

/-- A decoded packet's OPC bits are the command's opcode (R122: what FOPC records). -/
theorem Packet.opc_of_decode {c : Packet} {i : Instr} (h : decode c = .ok i) : i.opcode = c.opc :=
  (decode_inv h).1.symm

end Sys2Proof
end

