-- ==== Sys2Proof/Laws/PerInstr.lean ====
section
/-! SUPPORT. One family of statements, one lemma for each command: the packet form of a command (spec/30_encoding.md R61, R64). -/

namespace Sys2Proof.Laws.PacketForm

/-- The packet of a command carries its opcode in OPC and 0 in RSV. -/
def Statement (i : Instr) : Prop := (encode i).opc = i.opcode ∧ (encode i).rsv = 0

theorem ofFields (val : BitVec 64) (off : BitVec 32) (len opc : BitVec 8) :
    (Packet.ofFields val off len opc).opc = opc ∧ (Packet.ofFields val off len opc).rsv = 0 :=
  ⟨Packet.opc_ofFields val off len opc, Packet.rsv_ofFields val off len opc⟩

theorem setbit (i : Nat) : Statement (.setbit i) := ofFields _ _ _ _

theorem resetbit (i : Nat) : Statement (.resetbit i) := ofFields _ _ _ _

theorem testbit (i : Nat) : Statement (.testbit i) := ofFields _ _ _ _

theorem getblock (i len : Nat) : Statement (.getblock i len) := ofFields _ _ _ _

theorem setblock (i len value : Nat) : Statement (.setblock i len value) := ofFields _ _ _ _

theorem construct (n tau : Nat) : Statement (.construct n tau) := ofFields _ _ _ _

theorem release : Statement .release := ofFields _ _ _ _

theorem aget (index : Nat) : Statement (.aget index) := ofFields _ _ _ _

theorem aset (index value : Nat) : Statement (.aset index value) := ofFields _ _ _ _

theorem getlen : Statement .getlen := ofFields _ _ _ _

theorem gettau : Statement .gettau := ofFields _ _ _ _

theorem status : Statement .status := ofFields _ _ _ _

end Sys2Proof.Laws.PacketForm
end

