-- ==== Sys2Proof/Laws/Step.lean ====
section
/-! SUPPORT. What a step does with each kind of event, the halted unit, an illegal packet, and a row of the opcode table. -/

namespace Sys2Proof.Machine

variable {s : State} {c : Packet} {rest : List HostEvent} {i : Instr}

/-- A step whose next event is a packet runs that packet, the event taken off the port. -/
theorem step_of_command (h : s.input = .command c :: rest) : step s = runPacket c { s with input := rest } := by
  simp only [step, State.takeEvent, h, runEvent]

/-- A step whose next event is the reset input. -/
theorem step_of_reset (h : s.input = .reset :: rest) : step s = .next (State.resetInput { s with input := rest }) := by
  simp only [step, State.takeEvent, h, runEvent]

/-- A halted unit answers Halted to every command but STATUS. -/
theorem exec_of_halted (hf : s.flt = true) (hi : i ≠ .status) : exec i s = .next (s.withResponse 8 0) := by
  cases i <;> first | exact State.unlessHalted_of_halted hf _ | exact absurd rfl hi

/-- An illegal packet on a halted unit. -/
theorem State.illegalPacket_of_halted (hf : s.flt = true) : s.illegalPacket c = .next (s.withResponse 8 0) :=
  State.unlessHalted_of_halted hf _

/-- An illegal packet on a running unit. -/
theorem State.illegalPacket_of_running (hf : s.flt = false) :
    s.illegalPacket c = .next (s.haltedBy 1 (c.extractLsb' 0 8) (c.extractLsb' 32 32)) :=
  State.unlessHalted_of_running hf _

end Sys2Proof.Machine

namespace Sys2Proof

/-- Two packets are equal when their five fields are. -/
theorem Packet.eq_iff_fields (c d : Packet) :
    c = d ↔ c.opc = d.opc ∧ c.len = d.len ∧ c.rsv = d.rsv ∧ c.off = d.off ∧ c.val = d.val := by
  refine ⟨fun h => by subst h; simp, fun ⟨h1, h2, h3, h4, h5⟩ => BitVec.eq_of_toNat_eq ?_⟩
  replace h1 := congrArg BitVec.toNat h1
  replace h2 := congrArg BitVec.toNat h2
  replace h3 := congrArg BitVec.toNat h3
  replace h4 := congrArg BitVec.toNat h4
  replace h5 := congrArg BitVec.toNat h5
  have := c.isLt
  have := d.isLt
  simp only [Packet.rsv, Packet.val, Packet.off, Packet.len, Packet.opc, BitVec.extractLsb'_toNat,
    Nat.shiftRight_eq_div_pow] at h1 h2 h3 h4 h5
  omega

/-- A row's test, field by field. -/
theorem TableRow.hits_iff (r : TableRow) (c : Packet) : r.hits c = true ↔
    c.opc &&& r.mask.opc = r.pattern.opc ∧ c.len &&& r.mask.len = r.pattern.len ∧
      c.rsv &&& r.mask.rsv = r.pattern.rsv ∧ c.off &&& r.mask.off = r.pattern.off ∧
      c.val &&& r.mask.val = r.pattern.val := by
  rw [TableRow.hits, beq_iff_eq, Packet.eq_iff_fields]
  simp only [Packet.rsv, Packet.val, Packet.off, Packet.len, Packet.opc, BitVec.extractLsb'_and]

end Sys2Proof
end

