-- ==== Sys2Proof/Tests/Slice0.lean ====
section
/-! SUPPORT. Tests on fixed values, taken from the spec's vectors (spec/95_test_vectors.md, spec/96_test_vectors_by_family.md), and the witnesses that the hypotheses of the statements can be met. -/

namespace Sys2Proof.Tests

open Sys2Proof.Machine

/-! Helpers. -/

/-- The words, from word `k` on, written into a memory. -/
def fill (w : Width) (k : Nat) (words : List Nat) (m : Memory) : Memory :=
  match words with
  | [] => m
  | v :: t => fill w (k + 1) t (m.setWord w k v)

/-- A running unit with `MAXWORDS = 16`, the given buffer words, element width and length. -/
def unitOf (w : Width) (words : List Nat) (tau numel : Nat) : State :=
  { State.resetOf { width := w, maxWords := 16 } with
    buf := fill w 0 words []
    nwords := BitVec.ofNat 32 words.length
    taur := BitVec.ofNat 7 tau
    numel := BitVec.ofNat 32 numel }

/-- The same unit halted by an earlier `SETBLOCK 60, 8, ...` that raised BlockRange (spec/96 section 10). -/
def haltedUnit (w : Width) (words : List Nat) (tau numel : Nat) : State :=
  { unitOf w words tau numel with flt := true, cause := 4, fopc := 0x05, foff := 0x3C }

/-- The unit with events of the host waiting. -/
def withEvents (s : State) (es : List HostEvent) : State := { s with input := es }

/-- What a vector of the spec shows of a command: the responses and the buffer words, where the step answers a next state. -/
def shown (r : Result) : Option (List (BitVec 72) × List Nat) :=
  match r with
  | .next s => some (s.responses.map Response.packet, (List.range s.nwords.toNat).map s.word)
  | .fault _ => none
  | .refused _ => none

/-- FLT, CAUSE, FOPC and FOFF after a step. -/
def faultRegs (r : Result) : Option (Bool × BitVec 8 × BitVec 8 × BitVec 32) :=
  match r with
  | .next s => some (s.flt, s.cause, s.fopc, s.foff)
  | .fault _ => none
  | .refused _ => none

/-- TAUR, NUMEL and NWORDS after a step. -/
def arrayRegs (r : Result) : Option (BitVec 7 × BitVec 32 × BitVec 32) :=
  match r with
  | .next s => some (s.taur, s.numel, s.nwords)
  | .fault _ => none
  | .refused _ => none

/-- What the decoder makes of a packet. -/
def decoded (c : Packet) : Option Instr :=
  match decode c with
  | .ok i => some i
  | .error _ => none

/-- Why the decoder rejects a packet. -/
def rejected (c : Packet) : Option Reject :=
  match decode c with
  | .ok _ => none
  | .error e => some e

/-- spec/96 section 1. -/
def bits32 : State := unitOf .w32 [0x0000F0F0, 0x80000001] 1 32
/-- spec/96 section 2. -/
def bits64 : State := unitOf .w64 [0x00000000F0F0F0F0, 0x8000000000000001] 1 64
/-- spec/96 section 3. -/
def get32 : State := unitOf .w32 [0x89ABCDEF, 0x01234567, 0xFFFFFFFF] 0 0
/-- spec/96 section 4. -/
def set32 : State := unitOf .w32 [0xFFFFFFFF, 0x00000000, 0xAAAAAAAA] 0 0
/-- spec/96 section 5. -/
def blocks64 : State := unitOf .w64 [0x0123456789ABCDEF, 0xFEDCBA9876543210] 0 0
/-- spec/96 section 7. -/
def array32 : State := unitOf .w32 [0x00ABC123, 0xF0000DEF, 0x0000000F] 12 5
/-- spec/96 section 10. -/
def halted32 : State := haltedUnit .w32 [0x00000005, 0x00000000] 8 4

/-! Well-formedness: one ill-formed command for each check, and the edges that are well formed. -/

theorem test_illformed_setbit : (Instr.setbit (2 ^ 32)).wellFormed = false := by decide
theorem test_illformed_resetbit : (Instr.resetbit (2 ^ 32)).wellFormed = false := by decide
theorem test_illformed_testbit : (Instr.testbit (2 ^ 32)).wellFormed = false := by decide
theorem test_illformed_getblock :
    (Instr.getblock (2 ^ 32) 1).wellFormed = false ∧ (Instr.getblock 0 256).wellFormed = false := by decide
theorem test_illformed_setblock :
    (Instr.setblock (2 ^ 32) 1 0).wellFormed = false ∧ (Instr.setblock 0 256 0).wellFormed = false ∧
      (Instr.setblock 0 8 (2 ^ 64)).wellFormed = false := by decide
theorem test_illformed_construct :
    (Instr.construct (2 ^ 32) 1).wellFormed = false ∧ (Instr.construct 0 256).wellFormed = false := by decide
theorem test_illformed_aget : (Instr.aget (2 ^ 32)).wellFormed = false := by decide
theorem test_illformed_aset :
    (Instr.aset (2 ^ 32) 0).wellFormed = false ∧ (Instr.aset 0 (2 ^ 64)).wellFormed = false := by decide
theorem test_wellformed_that_faults :
    (Instr.getblock 0 0).WellFormed ∧ (Instr.getblock (2 ^ 32 - 1) 255).WellFormed := by decide

/-! Decoding: the packets of spec/95 and spec/96, written out field by field (R61). -/

theorem test_decode_setbit :
    decoded 0x0000000000000000_0000001F_0000_00_01 = some (.setbit 31) := by decide
theorem test_decode_resetbit :
    decoded 0x0000000000000000_0000003F_0000_00_02 = some (.resetbit 63) := by decide
theorem test_decode_testbit :
    decoded 0x0000000000000000_FFFFFFFF_0000_00_03 = some (.testbit 0xFFFFFFFF) := by decide
theorem test_decode_getblock :
    decoded 0x0000000000000000_0000001C_0000_08_04 = some (.getblock 28 8) := by decide
theorem test_decode_setblock :
    decoded 0xFFFFFFFF12345678_00000000_0000_20_05 = some (.setblock 0 32 0xFFFFFFFF12345678) := by decide
theorem test_decode_construct :
    decoded 0x0000000000000000_000003E8_0000_20_08 = some (.construct 1000 32) := by decide
theorem test_decode_release :
    decoded 0x0000000000000000_00000000_0000_00_09 = some .release := by decide
theorem test_decode_aget :
    decoded 0x0000000000000000_00000002_0000_00_0A = some (.aget 2) := by decide
theorem test_decode_aset :
    decoded 0x00000000000005A5_00000002_0000_00_0B = some (.aset 2 0x5A5) := by decide
theorem test_decode_getlen :
    decoded 0x0000000000000000_00000000_0000_00_0C = some .getlen := by decide
theorem test_decode_gettau :
    decoded 0x0000000000000000_00000000_0000_00_0D = some .gettau := by decide
theorem test_decode_status :
    decoded 0x0000000000000000_00000000_0000_00_0E = some .status := by decide

theorem test_reject_reserved_opcodes :
    rejected 0x00 = some .opcode ∧ rejected 0x06 = some .opcode ∧ rejected 0x07 = some .opcode ∧
      rejected 0x0F = some .opcode ∧ rejected 0x10 = some .opcode ∧ rejected 0xFF = some .opcode := by decide
theorem test_reject_all_ones : rejected (BitVec.allOnes 128) = some .reserved := by decide
theorem test_reject_rsv :
    rejected 0x0000000000000000_00000000_8000_00_01 = some .reserved ∧
      rejected 0x0000000000000000_00000000_0001_08_05 = some .reserved := by decide
theorem test_reject_len :
    rejected 0x0000000000000000_00000003_0000_FF_02 = some .lenNotZero ∧
      rejected 0x0000000000000005_00000000_0000_14_0B = some .lenNotZero := by decide
theorem test_reject_off :
    rejected 0x0000000000000000_00000001_0000_00_09 = some .offNotZero ∧
      rejected 0x0000000000000000_00000001_0000_00_0C = some .offNotZero := by decide
theorem test_reject_val :
    rejected 0x8000000000000000_00000000_0000_00_03 = some .valNotZero ∧
      rejected 0x0000000000000001_00000004_0000_14_08 = some .valNotZero := by decide

/-- R61's example of a packet, as the encoder writes it. -/
theorem test_encode_setblock : encode (.setblock 20 20 0xABCDE) = 0x00000000000ABCDE_00000014_0000_14_05 := by decide

theorem test_tableword_setbit : decodeTableWord 128 0x01 = some (.setbit 0) := by decide
theorem test_fetchword_runs_getlen :
    shown (step (State.reset.withFetchWord 128 0x0C)) = some ([0x00_0000000000000000], []) := by decide

/-! One command on the states of spec/95 and spec/96. -/

/-- spec/96 section 1, `SETBIT 31`; section 2, `SETBIT 32`. -/
theorem test_setbit :
    shown (exec (.setbit 31) bits32) = some ([0], [0x8000F0F0, 0x80000001]) ∧
      shown (exec (.setbit 32) bits64) = some ([0], [0x00000001F0F0F0F0, 0x8000000000000001]) := by decide

/-- spec/96 section 1, `SETBIT 64`. -/
theorem test_setbit_range :
    shown (exec (.setbit 64) bits32) = some ([0x03_0000000000000000], [0x0000F0F0, 0x80000001]) ∧
      faultRegs (exec (.setbit 64) bits32) = some (true, 3, 0x01, 0x40) := by decide

/-- spec/96 section 1, `RESETBIT 63`; section 2, `RESETBIT 31`. -/
theorem test_resetbit :
    shown (exec (.resetbit 63) bits32) = some ([0], [0x0000F0F0, 0x00000001]) ∧
      shown (exec (.resetbit 31) bits64) = some ([0], [0x0000000070F0F0F0, 0x8000000000000001]) := by decide

/-- spec/96 section 1, `TESTBIT 32`, `TESTBIT 62`; section 2, `TESTBIT 127`. -/
theorem test_testbit :
    shown (exec (.testbit 32) bits32) = some ([0x00_0000000000000001], [0x0000F0F0, 0x80000001]) ∧
      shown (exec (.testbit 62) bits32) = some ([0], [0x0000F0F0, 0x80000001]) ∧
      (shown (exec (.testbit 127) bits64)).map Prod.fst = some [0x00_0000000000000001] := by decide

/-- spec/96 section 3, `GETBLOCK 28, 8`, `31, 32`, `0, 32`, `65, 31`; section 5, `GETBLOCK 63, 64`. -/
theorem test_getblock :
    (shown (exec (.getblock 28 8) get32)).map Prod.fst = some [0x00_0000000000000078] ∧
      (shown (exec (.getblock 31 32) get32)).map Prod.fst = some [0x00_0000000002468ACF] ∧
      (shown (exec (.getblock 0 32) get32)).map Prod.fst = some [0x00_0000000089ABCDEF] ∧
      (shown (exec (.getblock 65 31) get32)).map Prod.fst = some [0x00_000000007FFFFFFF] ∧
      (shown (exec (.getblock 63 64) blocks64)).map Prod.fst = some [0x00_FDB97530ECA86420] := by decide

/-- spec/96 section 3, `GETBLOCK 65, 32` and `GETBLOCK 0xFFFFFFFF, 0`. -/
theorem test_getblock_faults :
    faultRegs (exec (.getblock 65 32) get32) = some (true, 4, 0x04, 0x41) ∧
      faultRegs (exec (.getblock 0xFFFFFFFF 0) get32) = some (true, 2, 0x04, 0xFFFFFFFF) := by decide

/-- spec/96 section 4, `SETBLOCK 28, 8, 0xA5`, `31, 32, 0x80000001`, `4, 8, 0xF5A`, `28, 4, 3`. -/
theorem test_setblock :
    shown (exec (.setblock 28 8 0xA5) set32) = some ([0], [0x5FFFFFFF, 0x0000000A, 0xAAAAAAAA]) ∧
      shown (exec (.setblock 31 32 0x80000001) set32) = some ([0], [0xFFFFFFFF, 0x40000000, 0xAAAAAAAA]) ∧
      shown (exec (.setblock 4 8 0xF5A) set32) = some ([0], [0xFFFFF5AF, 0x00000000, 0xAAAAAAAA]) ∧
      shown (exec (.setblock 28 4 0x3) set32) = some ([0], [0x3FFFFFFF, 0x00000000, 0xAAAAAAAA]) := by decide

/-- spec/95 part 2, `SETBLOCK 56, 16, 0xA55A` with `W = 64`; spec/96 section 4, `SETBLOCK 0, 33, 0`. -/
theorem test_setblock_more :
    shown (exec (.setblock 56 16 0xA55A) blocks64) = some ([0], [0x5A23456789ABCDEF, 0xFEDCBA98765432A5]) ∧
      shown (exec (.setblock 0 33 0) set32) =
        some ([0x02_0000000000000000], [0xFFFFFFFF, 0x00000000, 0xAAAAAAAA]) := by decide

/-- spec/96 section 6, `CONSTRUCT 4, 20` for both widths, from the reset state. -/
theorem test_construct :
    arrayRegs (exec (.construct 4 20) State.reset) = some (20, 4, 4) ∧
      shown (exec (.construct 4 20) State.reset) = some ([0], [0, 0, 0, 0]) ∧
      arrayRegs (exec (.construct 4 20) (unitOf .w64 [] 0 0)) = some (20, 4, 3) ∧
      arrayRegs (exec (.construct 2 16) (unitOf .w32 [0x04030201, 0] 8 4)) = some (16, 2, 2) := by decide

/-- spec/96 sections 6 and 10: BadTau, Capacity with an exact product, BadTau before Capacity (R123). -/
theorem test_construct_faults :
    faultRegs (exec (.construct 9 0) State.reset) = some (true, 6, 0x08, 9) ∧
      faultRegs (exec (.construct 0xFFFFFFFF 32) State.reset) = some (true, 7, 0x08, 0xFFFFFFFF) ∧
      faultRegs (exec (.construct 481 1) State.reset) = some (true, 7, 0x08, 481) ∧
      faultRegs (exec (.construct 480 1) State.reset) = some (false, 0, 0, 0) := by decide

/-- spec/96 section 7. -/
theorem test_release :
    shown (exec .release array32) = some ([0], []) ∧ arrayRegs (exec .release array32) = some (0, 0, 0) := by decide

/-- spec/96 section 7, `AGET 2` (straddles), `AGET 3`. -/
theorem test_aget :
    (shown (exec (.aget 2) array32)).map Prod.fst = some [0x00_0000000000000F00] ∧
      (shown (exec (.aget 3) array32)).map Prod.fst = some [0x00_00000000000000DE] := by decide

/-- spec/96 section 7, `AGET 5`: the check is against NUMEL although the bits exist. -/
theorem test_aget_range : faultRegs (exec (.aget 5) array32) = some (true, 5, 0x0A, 5) := by decide

/-- spec/96 section 7, `ASET 2, 0xFFFFFFFFFFFFF5A5`, `ASET 4, 0xFFF`. -/
theorem test_aset :
    shown (exec (.aset 2 0xFFFFFFFFFFFFF5A5) array32) = some ([0], [0xA5ABC123, 0xF0000DE5, 0x0000000F]) ∧
      shown (exec (.aset 4 0xFFF) array32) = some ([0], [0x00ABC123, 0xFFFF0DEF, 0x0000000F]) := by decide

/-- spec/96 section 7, `ASET 5, 0`. -/
theorem test_aset_range : faultRegs (exec (.aset 5 0) array32) = some (true, 5, 0x0B, 5) := by decide

/-- spec/96 section 7. -/
theorem test_getlen : (shown (exec .getlen array32)).map Prod.fst = some [0x00_0000000000000005] := by decide

/-- spec/96 section 7. -/
theorem test_gettau : (shown (exec .gettau array32)).map Prod.fst = some [0x00_000000000000000C] := by decide

/-- spec/96 sections 8 and 10. -/
theorem test_status :
    (shown (exec .status State.reset)).map Prod.fst = some [0] ∧
      (shown (exec .status halted32)).map Prod.fst = some [0x00_0000003C00050401] := by decide

/-- spec/96 section 10: a halted unit answers Halted, and keeps its fault registers, on an illegal packet too. -/
theorem test_halted :
    shown (exec .getlen halted32) = some ([0x08_0000000000000000], [5, 0]) ∧
      shown (runPacket (BitVec.allOnes 128) halted32) = some ([0x08_0000000000000000], [5, 0]) ∧
      faultRegs (runPacket (BitVec.allOnes 128) halted32) = some (true, 4, 0x05, 0x3C) := by decide

/-- spec/96 section 9, the all-ones packet and a GETBLOCK with VAL = 1 that is out of range too. -/
theorem test_illegal_packet :
    faultRegs (runPacket (BitVec.allOnes 128) array32) = some (true, 1, 0xFF, 0xFFFFFFFF) ∧
      faultRegs (runPacket 0x0000000000000001_FFFFFFFF_0000_08_04 array32) = some (true, 1, 0x04, 0xFFFFFFFF) := by
  decide

/-- R140: the reset input. -/
theorem test_reset_input :
    arrayRegs (runEvent .reset halted32) = some (0, 0, 0) ∧
      faultRegs (runEvent .reset halted32) = some (false, 0, 0, 0) := by decide

/-! Memory. -/

/-- Two orders of the same two writes give equal data, and writing 0 removes the entry. -/
theorem test_memory_canonical :
    (Memory.write (Memory.write [] 5 7) 3 9) = Memory.write (Memory.write [] 3 9) 5 7 ∧
      Memory.write (Memory.write [] 5 7) 5 0 = [] := by decide

/-- `W = 32`: a word is four bytes, the least significant at the lowest address (log 3). -/
theorem test_memory_word : Memory.setWord .w32 [] 1 0x010200FF = [(4, 0xFF), (6, 0x02), (7, 0x01)] := by decide

/-! The assembler (R67, R68). -/

theorem test_parse_line :
    parseLine "SETBLOCK 20, 20, 0xABCDE ; a comment".toList = .line (.command (.setblock 20 20 0xABCDE)) := by decide
theorem test_parse_comment : parseLine "  ; nothing here".toList = .empty := by decide
theorem test_parse_digits :
    parseNumber "0x1F".toList = some 31 ∧ parseNumber "0xabc".toList = some 0xABC ∧ parseNumber "480".toList = some 480 ∧
      parseNumber "1F".toList = none ∧ parseNumber "0x".toList = none ∧ parseNumber [] = none := by decide
theorem test_parse_bad : parseLine "SETBIT 1, 2".toList = .bad := by decide
/-- spec/95 S9: `GET2D 2, 3, 5` is `AGET 17`. -/
theorem test_get2d : (AsmLine.getCell 2 3 5).expand .w32 = .aget 17 := by decide
theorem test_getword : (AsmLine.getword 2).expand .w64 = .getblock 128 64 := by decide
theorem test_assemble_rejects : (AsmLine.command (.getblock 0 256)).assemble .w32 = none := by decide
theorem test_written :
    Response.written { code := 0, res := 4 } .getlen = some "OK 4" ∧
      Response.written { code := 0, res := 0 } .release = some "OK" ∧
      Response.written { code := 4, res := 0 } (.getblock 96 1) = some "BlockRange" := by decide

/-! Witnesses: for each statement with hypotheses, a state and operands that meet them, each clause at an edge of its range. -/

/-- The legal array of spec/96 section 7 meets the invariants. -/
theorem test_inv_array32 : array32.Inv where
  legal := by decide
  withinCapacity := by decide
  empty := by decide
  constructed := by decide
  running := by decide
  halted := by decide
  canonical := by decide
  extent := by decide

theorem test_inv_halted32 : halted32.Inv where
  legal := by decide
  withinCapacity := by decide
  empty := by decide
  constructed := by decide
  running := by decide
  halted := by decide
  canonical := by decide
  extent := by decide

/-- A legal state with `W = 64` and `tau = W`. -/
theorem test_inv_array64 : (unitOf .w64 [5, 0] 64 1).Inv where
  legal := by decide
  withinCapacity := by decide
  empty := by decide
  constructed := by decide
  running := by decide
  halted := by decide
  canonical := by decide
  extent := by decide

/-- A state that breaks R28 and reaches `Fault.noSuchWord`. -/
def noWords : State := { State.reset with taur := 8, numel := 1 }

theorem test_witness_DecodeEncodeRoundTrip :
    (Instr.setblock (2 ^ 32 - 1) 255 (2 ^ 64 - 1)).WellFormed ∧ Instr.status.WellFormed := by decide

theorem test_witness_DecodedPacketIsItsEncoding :
    decode 0xFFFFFFFFFFFFFFFF_FFFFFFFF_0000_FF_05 = .ok (.setblock (2 ^ 32 - 1) 255 (2 ^ 64 - 1)) := by rfl

theorem test_witness_IllegalPacketFaults :
    let s := withEvents bits32 [.command 0x06]
    s.flt = false ∧ s.input = .command 0x06 :: [] ∧ ∀ r ∈ tableRows, 0x06#128 &&& r.mask ≠ r.pattern := by decide

theorem test_witness_StepRunsDecodedCommand :
    (withEvents bits32 [.command 0x0C]).input = .command 0x0C :: [] ∧ decode 0x0C = .ok .getlen := ⟨rfl, rfl⟩

theorem test_witness_StepRunsPlacedPacket : (Instr.construct (2 ^ 32 - 1) 255).WellFormed := by decide

theorem test_witness_StepWaitsWithNothingPending : halted32.input = [] := by decide

theorem test_witness_ResetInputEmptiesUnit :
    (withEvents halted32 [.reset, .command 0]).input = .reset :: [.command 0] := by decide

theorem test_witness_PrologueOfEveryCommand_status :
    let s := withEvents halted32 [.command 0x0E]
    s.input = .command 0x0E :: [] ∧ s.flt = true ∧ decode 0x0E = .ok .status := ⟨rfl, rfl, rfl⟩

theorem test_witness_PrologueOfEveryCommand_halted :
    let s := withEvents halted32 [.command 0x0C]
    s.input = .command 0x0C :: [] ∧ s.flt = true ∧ decode 0x0C ≠ .ok .status :=
  ⟨rfl, rfl, by rw [show decode 0x0C = .ok .getlen from rfl]; simp⟩

theorem test_witness_PrologueOfEveryCommand_running :
    let s := withEvents array32 [.command 0x0C]
    s.input = .command 0x0C :: [] ∧ s.flt = false ∧ decode 0x0C = .ok .getlen := ⟨rfl, rfl, rfl⟩

theorem test_witness_PrologueOfEveryCommand_illegal :
    let s := withEvents array32 [.command 0]
    s.input = .command 0 :: [] ∧ s.flt = false ∧ decode 0 = .error .opcode := ⟨rfl, rfl, rfl⟩

theorem test_witness_OnlyResetLeavesHaltedState :
    let s := withEvents halted32 [.command 0x0C]
    (s.flt = true ∧ s.input.head? ≠ some .reset ∧ ∃ t, step s = .next t) ∧
      (withEvents halted32 [.reset]).flt = true ∧ (withEvents halted32 [.reset]).input = .reset :: [] :=
  ⟨⟨rfl, by decide, _, rfl⟩, rfl, rfl⟩

theorem test_witness_OneResponsePerPacket :
    let s := withEvents array32 [.command 0x10A]
    s.input = .command 0x10A :: [] ∧ ∃ t, step s = .next t ∧ ∃ r ∈ t.responses, r.code ≠ 0 :=
  ⟨rfl, _, rfl, ⟨1, 0⟩, by decide, by decide⟩

theorem test_witness_FaultEntryRecordsThePacket :
    let s := withEvents array32 [.command 0x00000005_0000_00_0A]
    s.flt = false ∧ s.input = .command 0x00000005_0000_00_0A :: [] ∧
      ∃ t, step s = .next t ∧ t.flt = true := ⟨rfl, rfl, _, rfl, rfl⟩

theorem test_witness_FaultEntryRecordsThePacket_halted :
    let s := withEvents halted32 [.command 0]
    s.flt = true ∧ s.input = .command 0 :: [] ∧ ∃ t, step s = .next t := ⟨rfl, rfl, _, rfl⟩

theorem test_witness_ChecksInFixedOrder :
    bits32.flt = false ∧
      (¬ (1 ≤ 0 ∧ 0 ≤ bits32.params.width.bits) ∧ ¬ (1 ≤ 33 ∧ 33 ≤ bits32.params.width.bits)) ∧
      (1 ≤ 32 ∧ 32 ≤ bits32.params.width.bits ∧ bits32.bitCount < 33 + 32) ∧
      (1 ≤ 1 ∧ 1 ≤ bits32.params.width.bits ∧ bits32.params.maxWords < bufferWords bits32.params.width 481 1) ∧
      bits32.bitCount ≤ 64 ∧ bits32.numel.toNat ≤ 32 := by decide

theorem test_witness_WordWriteThenRead :
    1 < bits32.nwords.toNat ∧ 2 ^ 32 - 1 < 2 ^ bits32.params.width.bits := by decide

theorem test_witness_BitStreamIsTheWords : 63 < bits32.bitCount ∧ 127 < bits64.bitCount := by decide

/-- SetbitSetsOneBit, ResetbitClearsOneBit, TestbitReturnsOneBit, SetResetTestLaws, BitCommandsAreBlocksOfOne: the last bit in
range, and the first out of range. -/
theorem test_witness_bit_commands :
    bits32.flt = false ∧ 63 < bits32.bitCount ∧ bits32.bitCount ≤ 64 ∧ (0 < bits32.bitCount ∧ 0 ≠ 63) := by decide

/-- GetblockReadsWords, SetblockWritesWords: in range in one word and across two, each bad length, one bit too long. -/
theorem test_witness_block_words :
    get32.flt = false ∧
      (1 ≤ 32 ∧ 32 ≤ get32.params.width.bits ∧ 64 + 32 ≤ get32.bitCount ∧ ¬ straddles get32.params.width 64 32) ∧
      (1 ≤ 2 ∧ 2 ≤ get32.params.width.bits ∧ 63 + 2 ≤ get32.bitCount ∧ straddles get32.params.width 63 2) ∧
      ¬ (1 ≤ 0 ∧ 0 ≤ get32.params.width.bits) ∧ ¬ (1 ≤ 33 ∧ 33 ≤ get32.params.width.bits) ∧
      get32.bitCount < 65 + 32 := by decide

/-- GetblockReadsBitStream, SetblockWritesBitStream. -/
theorem test_witness_block_stream :
    blocks64.flt = false ∧ 1 ≤ 64 ∧ 64 ≤ blocks64.params.width.bits ∧ 63 + 64 ≤ blocks64.bitCount := by decide

/-- Another buffer with the same two words: the third differs. -/
theorem test_witness_GetblockFootprint :
    let b := get32.buf.setWord .w32 2 0
    get32.flt = false ∧ 1 ≤ 8 ∧ 8 ≤ get32.params.width.bits ∧ 28 + 8 ≤ get32.bitCount ∧
      b.word get32.params.width (28 / get32.params.width.bits) = get32.word (28 / get32.params.width.bits) ∧
      get32.params.width.bits < 28 % get32.params.width.bits + 8 ∧
      b.word get32.params.width (28 / get32.params.width.bits + 1) = get32.word (28 / get32.params.width.bits + 1) ∧
      b ≠ get32.buf := by decide

theorem test_witness_SetblockThenGetblock :
    set32.flt = false ∧ 1 ≤ 20 ∧ 20 ≤ set32.params.width.bits ∧ 20 + 20 ≤ set32.bitCount ∧
      (1 ≤ 20 ∧ 0 + 20 ≤ set32.bitCount ∧ 0 + 20 ≤ 20) ∧
      (1 ≤ 32 ∧ 32 ≤ set32.params.width.bits ∧ 40 + 32 ≤ set32.bitCount ∧ 20 + 20 ≤ 40) := by decide

theorem test_witness_WritesAreIdempotent :
    array32.Inv ∧ array32.flt = false ∧ (Instr.aset 4 0xFFF).isWrite = true ∧ (Instr.setbit 96).isWrite = true :=
  ⟨test_inv_array32, by decide⟩

theorem test_witness_BufferHasOneSpareWord : 4 * 20 ≤ 3 * Width.w32.bits := by decide

theorem test_witness_ConstructMakesZeroArray :
    bits32.flt = false ∧ bits32.params.legal ∧ 480 < 2 ^ 32 ∧
      (480 * 1 + bits32.params.width.bits - 1) / bits32.params.width.bits + 1 ≤ bits32.params.maxWords ∧
      bits32.params.maxWords < (481 * 1 + bits32.params.width.bits - 1) / bits32.params.width.bits + 1 ∧
      ¬ (1 ≤ 0 ∧ 0 ≤ bits32.params.width.bits) ∧ ¬ (1 ≤ 33 ∧ 33 ≤ bits32.params.width.bits) := by decide

/-- ReleaseEmptiesUnit, GetlenReturnsLength, GettauReturnsWidth: a running unit, legal, constructed or empty. -/
theorem test_witness_running :
    (array32.flt = false ∧ array32.Inv) ∧ State.reset.flt = false ∧ State.reset.nwords = 0 :=
  ⟨⟨rfl, test_inv_array32⟩, rfl, rfl⟩

/-- AgetReturnsElement, AsetReplacesElement, AsetThenAgetTruncates, ElementsLieBelowSpareWord, ElementsAreIndependent,
ArrayCommandsAreBlockCommands: the last element, another one, and the first index out of range. -/
theorem test_witness_elements :
    array32.Inv ∧ array32.flt = false ∧ 4 < array32.numel.toNat ∧ array32.numel.toNat ≤ 5 ∧
      (0 < array32.numel.toNat ∧ 0 ≠ 4) ∧ array32.numel.toNat * array32.taur.toNat ≤ 60 :=
  ⟨test_inv_array32, by decide⟩

theorem test_witness_ResetSeenThroughCommands :
    let p : Params := { width := .w64, maxWords := 2 ^ 26 }
    p.legal ∧ State.resetOf p = { State.resetOf p with input := [], responses := [] } ∧
      (1 ≤ 64 ∧ 64 ≤ p.width.bits) ∧ bufferWords p.width 1 64 ≤ p.maxWords := by decide

theorem test_witness_ResetMeetsInvariants :
    Params.legal { width := .w32, maxWords := 1 } ∧ Params.legal { width := .w32, maxWords := 2 ^ 27 } := by decide

theorem test_witness_StepKeepsInvariants : halted32.Inv ∧ ∃ t, step halted32 = .next t :=
  ⟨test_inv_halted32, _, rfl⟩

theorem test_witness_RunsNeverStop : (unitOf .w64 [5, 0] 64 1).Inv := test_inv_array64

theorem test_witness_NothingRefused : exec (.aget 0) noWords = .fault (.noSuchWord 0) := rfl

theorem test_witness_ParametersNeverChange : ∃ t, step array32 = .next t := ⟨_, rfl⟩

/-- ContractDecidesTheCode: a command that keeps the contract and one that does not. -/
theorem test_witness_ContractDecidesTheCode :
    array32.Inv ∧ array32.flt = false ∧ (Instr.aget 4).keepsContract array32 ∧ ¬ (Instr.aget 5).keepsContract array32 :=
  ⟨test_inv_array32, rfl, show 4 < array32.numel.toNat by decide, show ¬ 5 < array32.numel.toNat by decide⟩

theorem test_witness_RegistersChangeOnlyByTheirCommands :
    (∃ t, exec .release array32 = .next t ∧ t.taur ≠ array32.taur) ∧
      ∃ t, exec (.aset 0 0) array32 = .next t ∧ t.buf ≠ array32.buf :=
  ⟨⟨_, rfl, by decide⟩, _, rfl, by decide⟩

theorem test_witness_CodecIgnoresArrayRegisters : (Instr.getblock 0 33).isCodec = true := by decide

theorem test_witness_HistoryDoesNotMatter : ∃ t, exec (.getblock 0 33) get32 = .next t := ⟨_, rfl⟩

theorem test_witness_RunWentWrongIffHalted :
    let s := withEvents array32 [.command 0x00000005_0000_00_0A, .reset, .command 0x0C]
    s.Healthy ∧ ∃ t, core.run 3 s = .next t ∧ t.flt = false ∧ ∃ r ∈ t.responses, r.code ≠ 0 :=
  ⟨⟨rfl, by decide⟩, _, rfl, rfl, ⟨5, 0⟩, by decide, by decide⟩

theorem test_witness_StatusReturnsFaultRegisters :
    (State.reset.flt = false ∧ decode 0x0E = .ok .status) ∧ halted32.flt = true ∧ Instr.getlen ≠ .status :=
  ⟨⟨rfl, rfl⟩, rfl, by decide⟩

/-- A unit halted by a packet it answered: the state after the first of the two events. -/
theorem test_witness_StepReportsFaults :
    (∃ t, step (withEvents array32 [.command 0, .reset]) = .next t ∧ t.flt = true ∧ t.responses = [⟨1, 0⟩] ∧
      ∃ u, step t = .next u ∧ u.flt = false) ∧
      State.ReportsFault array32 :=
  ⟨⟨_, rfl, rfl, rfl, _, rfl, rfl⟩, fun h => absurd h (by decide)⟩

theorem test_witness_ConstructAndReleaseEmptyTheList :
    array32.flt = false ∧ 1 ≤ 32 ∧ 32 ≤ array32.params.width.bits ∧
      bufferWords array32.params.width 15 32 ≤ array32.params.maxWords := by decide

/-- Each row of R68 on both sides of its bound; spec/95 S9 gives GET2D 2, 3, 5 as AGET 17. -/
theorem test_witness_PseudoCommandsAssemble :
    (AsmLine.getCell 2 3 5).assemble .w32 = some 0x0000000000000000_00000011_0000_00_0A ∧
      (AsmLine.getCell 0 (2 ^ 16) (2 ^ 16)).assemble .w32 = none ∧
      (AsmLine.setCell 2 3 5 7).assemble .w64 = some 0x0000000000000007_00000011_0000_00_0B ∧
      (AsmLine.setCell 2 3 5 (2 ^ 64)).assemble .w64 = none := by decide

theorem test_witness_PseudoCommandsAssemble_words :
    (AsmLine.getword (2 ^ 27 - 1)).assemble .w32 = some 0x0000000000000000_FFFFFFE0_0000_20_04 ∧
      (AsmLine.getword (2 ^ 27)).assemble .w32 = none ∧
      (AsmLine.getword (2 ^ 26)).assemble .w64 = none ∧
      (AsmLine.setword 1 5).assemble .w64 = some 0x0000000000000005_00000040_0000_40_05 ∧
      (AsmLine.setword 1 (2 ^ 64)).assemble .w64 = none := by decide

theorem test_witness_PseudoCommandsAssemble_names :
    (AsmLine.isbitset 31).assemble .w32 = some 0x0000000000000000_0000001F_0000_00_03 ∧
      (AsmLine.isbitset (2 ^ 32)).assemble .w32 = none ∧
      (AsmLine.bitstring 64).assemble .w32 = some 0x0000000000000000_00000040_0000_01_08 ∧
      (AsmLine.bitstring (2 ^ 32)).assemble .w32 = none := by decide

theorem test_witness_WholeWordPseudoCommands : get32.flt = false ∧ 2 < get32.nwords.toNat := by decide

end Sys2Proof.Tests
end

/-! The parameters of the unit never change (spec/00_scope.md R5, R6). -/

namespace Sys2Proof.Machine

variable {s t : State}

/-- A step with nothing pending waits. -/
theorem step_of_no_event (h : s.input = []) : step s = .next s := by
  simp only [step, State.takeEvent, h, State.wait]

/-- No effect of a command touches `W` or `MAXWORDS`. -/
theorem Effect.params_eq {i : Instr} (h : Effect i s t) : t.params = s.params := by
  cases h with
  | halted _ _ ht => subst ht; rfl
  | value _ _ ht => subst ht; rfl
  | wrote _ _ _ _ _ ht => subst ht; rfl
  | constructed _ _ _ _ _ _ ht => subst ht; rfl
  | released _ _ ht => subst ht; rfl
  | faulted _ _ ht => subst ht; rfl

theorem State.illegalPacket_params_eq {c : Packet} (h : s.illegalPacket c = .next t) : t.params = s.params := by
  cases hf : s.flt with
  | true =>
    rw [State.illegalPacket_of_halted hf] at h
    cases h
    rfl
  | false =>
    rw [State.illegalPacket_of_running hf] at h
    cases h
    rfl

/-- A packet, whether it decodes to a command or not, leaves the parameters as they were. -/
theorem runPacket_params_eq {c : Packet} (h : runPacket c s = .next t) : t.params = s.params := by
  unfold runPacket at h
  split at h
  · exact (exec_effect h).params_eq
  · exact State.illegalPacket_params_eq h

/-- Settles O49, by the next event on the port: none, a command packet, or the reset input. -/
theorem parametersNeverChange : Obligations.ParametersNeverChange := by
  intro s t h
  cases hin : s.input with
  | nil =>
    rw [step_of_no_event hin] at h
    cases h
    rfl
  | cons e rest =>
    cases e with
    | command c =>
      rw [step_of_command hin] at h
      have hparams := runPacket_params_eq h
      exact hparams
    | reset =>
      rw [step_of_reset hin] at h
      cases h
      rfl

end Sys2Proof.Machine

/-! The reset state, and the width of a word (spec/10_state.md R23, R28, R30). -/

namespace Sys2Proof.Machine

/-- With no word accessible MemRead answers for none (R41). -/
theorem State.memRead_ne_ok_of_nwords_zero {s : State} (h : s.nwords = 0) (k v : Nat) : s.memRead k ≠ .ok v := by
  intro hr
  obtain ⟨hk, -⟩ := State.memRead_eq_ok.1 hr
  simp [h] at hk

/-- Settles O10, by the reset value of each register; the last clause since NWORDS is 0. -/
theorem resetStateIsZeroAndEmpty : Obligations.ResetStateIsZeroAndEmpty := by
  intro p
  exact ⟨State.resetOf_nwords p, State.resetOf_taur p, State.resetOf_numel p, State.resetOf_flt p,
    State.resetOf_cause p, State.resetOf_fopc p, State.resetOf_foff p,
    State.memRead_ne_ok_of_nwords_zero (State.resetOf_nwords p)⟩

/-- Settles O46, since a word is read from exactly `W / 8` bytes. -/
theorem wordsHaveWordWidth : Obligations.WordsHaveWordWidth :=
  fun s k => Memory.word_lt s.params.width s.buf k

/-- The reset state of a unit with legal parameters meets the invariants. -/
theorem State.Inv.resetOf {p : Params} (hp : p.legal) : (State.resetOf p).Inv where
  legal := hp
  withinCapacity := Nat.zero_le _
  empty _ := ⟨rfl, rfl⟩
  constructed hne := absurd rfl hne
  running _ := ⟨rfl, rfl, rfl⟩
  halted hf := by simp at hf
  canonical := Memory.wf_nil
  extent := by simp

/-- Settles O44, by the invariants of every legal reset state; a running unit has no fault to report. -/
theorem resetMeetsInvariants : Obligations.ResetMeetsInvariants :=
  ⟨State.Inv.resetOf (p := Params.documented) (by decide), fun _ hp => State.Inv.resetOf hp,
    fun _ hf => by simp at hf⟩

end Sys2Proof.Machine

/-! CONSTRUCT and RELEASE on a running unit (spec/42_packed_array.md R102, R103). -/

namespace Sys2Proof.Machine

variable {s t : State}

/-- CONSTRUCT with a legal width and room for the words makes the new array and answers OK (R102). -/
theorem exec_construct_of_fits {n tau : Nat} (hf : s.flt = false) (hl : legalLen s.params.width tau)
    (hcap : bufferWords s.params.width n tau ≤ s.params.maxWords) :
    exec (.construct n tau) s =
      .next ((s.construct n tau (bufferWords s.params.width n tau)).withResponse 0 0) := by
  rw [exec, execConstruct, State.unlessHalted_of_running hf, if_pos hl, if_pos hcap]
  rfl

/-- RELEASE on a running unit empties it and answers OK (R103). -/
theorem exec_release_of_running (hf : s.flt = false) :
    exec .release s = .next (State.withResponse { s with nwords := 0, taur := 0, numel := 0, buf := [] } 0 0) :=
  State.unlessHalted_of_running hf _

/-- With nothing listed every byte and every word reads 0 (log 4). -/
theorem State.reads_zero_of_buf_nil (h : t.buf = []) : (∀ a, t.buf.read a = 0) ∧ ∀ k, t.word k = 0 := by
  refine ⟨fun a => ?_, fun k => ?_⟩
  · rw [h, Memory.read_nil]
  · rw [State.word, h, Memory.word_nil]

/-- Settles O33, since both commands end with nothing listed. -/
theorem constructAndReleaseEmptyTheList : Obligations.ConstructAndReleaseEmptyTheList := by
  intro n tau s hf
  refine ⟨fun hpos hle hcap => ?_, ?_⟩
  · exact ⟨_, exec_construct_of_fits hf ⟨hpos, hle⟩ hcap, State.reads_zero_of_buf_nil rfl⟩
  · exact ⟨_, exec_release_of_running hf, State.reads_zero_of_buf_nil rfl⟩

end Sys2Proof.Machine

/-! Every step keeps the invariants of R28. -/

namespace Sys2Proof.Machine

variable {s t : State} {c : Packet} {i : Instr}

/-- All that a packet can do: a command's effect, or an illegal packet's Halted or IllegalCommand. -/
theorem runPacket_cases (h : runPacket c s = .next t) :
    (∃ i, decode c = .ok i ∧ Effect i s t) ∨
    (s.flt = true ∧ t = s.withResponse 8 0) ∨
    (s.flt = false ∧ t = s.haltedBy (Cause.code .illegalCommand) c.opc c.off) := by
  unfold runPacket at h
  split at h
  · next i hdec => exact .inl ⟨i, hdec, exec_effect h⟩
  · cases hf : s.flt with
    | true =>
      rw [State.illegalPacket_of_halted hf] at h
      cases h
      exact .inr (.inl ⟨rfl, rfl⟩)
    | false =>
      rw [State.illegalPacket_of_running hf] at h
      cases h
      exact .inr (.inr ⟨rfl, rfl⟩)

/-- All that a step can do: wait, run a packet, or take the reset input, the event off the port. -/
theorem step_cases (h : step s = .next t) :
    (s.input = [] ∧ t = s) ∨
    (∃ c rest, s.input = .command c :: rest ∧ runPacket c { s with input := rest } = .next t) ∨
    (∃ rest, s.input = .reset :: rest ∧ t = State.resetInput { s with input := rest }) := by
  cases hin : s.input with
  | nil =>
    rw [step_of_no_event hin] at h
    cases h
    exact .inl ⟨rfl, rfl⟩
  | cons e rest =>
    cases e with
    | command c =>
      rw [step_of_command hin] at h
      exact .inr (.inl ⟨c, rest, rfl, h⟩)
    | reset =>
      rw [step_of_reset hin] at h
      cases h
      exact .inr (.inr ⟨rest, rfl, rfl⟩)

/-! The invariants under each change of a state. -/

/-- The invariants do not speak of the ports. -/
theorem State.Inv.withPorts (h : s.Inv) (q : List HostEvent) (rs : List Response) :
    State.Inv { s with input := q, responses := rs } :=
  ⟨h.legal, h.withinCapacity, h.empty, h.constructed, h.running, h.halted, h.canonical, h.extent⟩

theorem State.Inv.withResponse (h : s.Inv) (code : BitVec 8) (res : BitVec 64) : (s.withResponse code res).Inv :=
  h.withPorts _ _

/-- A canonical buffer that lists nothing beyond the accessible words may replace the old one. -/
theorem State.Inv.withBuf (h : s.Inv) {b : Memory} (hwf : b.wf)
    (hext : ∀ x ∈ b, x.1 < s.nwords.toNat * s.params.width.bytes) : State.Inv { s with buf := b } :=
  ⟨h.legal, h.withinCapacity, h.empty, h.constructed, h.running, h.halted, hwf, hext⟩

theorem Cause.code_range (k : Cause) : 1 ≤ k.code.toNat ∧ k.code.toNat ≤ 7 := by
  cases k <;> decide

theorem State.Inv.haltedBy (h : s.Inv) (k : Cause) (opc : BitVec 8) (off : BitVec 32) :
    (s.haltedBy k.code opc off).Inv where
  legal := h.legal
  withinCapacity := h.withinCapacity
  empty := h.empty
  constructed := h.constructed
  running hf := by simp [State.haltedBy] at hf
  halted _ := k.code_range
  canonical := h.canonical
  extent := h.extent

theorem State.Inv.released (h : s.Inv) : State.Inv { s with nwords := 0, taur := 0, numel := 0, buf := [] } where
  legal := h.legal
  withinCapacity := Nat.zero_le _
  empty _ := ⟨rfl, rfl⟩
  constructed hne := absurd rfl hne
  running := h.running
  halted := h.halted
  canonical := Memory.wf_nil
  extent := by simp

theorem le_ceilDiv_mul (a : Nat) {b : Nat} (hb : 0 < b) : a ≤ ceilDiv a b * b := by
  have hmod := Nat.mod_lt (a + b - 1) hb
  have hdiv := Nat.div_add_mod (a + b - 1) b
  rw [Nat.mul_comm] at hdiv
  unfold ceilDiv
  omega

/-- What CONSTRUCT writes fits NWORDS, NUMEL and TAUR: R6 bounds `MAXWORDS * W` by `2^32`, whatever the operands. -/
theorem construct_fits_registers {p : Params} {n tau : Nat} (hp : p.legal) (hl : legalLen p.width tau)
    (hcap : bufferWords p.width n tau ≤ p.maxWords) :
    bufferWords p.width n tau < 2 ^ 32 ∧ n < 2 ^ 32 ∧ tau < 2 ^ 7 := by
  have helem : n ≤ n * tau := Nat.le_mul_of_pos_right n hl.1
  have hbits : n * tau ≤ ceilDiv (n * tau) p.width.bits * p.width.bits := le_ceilDiv_mul _ p.width.bits_pos
  have hwords : bufferWords p.width n tau * p.width.bits ≤ 2 ^ 32 :=
    (Nat.mul_le_mul_right _ hcap).trans hp.2
  have htau := hl.2
  unfold bufferWords at hwords ⊢
  cases hw : p.width <;> simp only [hw, Width.bits] at * <;> omega

theorem State.Inv.construct (h : s.Inv) {n tau : Nat} (hl : legalLen s.params.width tau)
    (hcap : bufferWords s.params.width n tau ≤ s.params.maxWords) :
    (s.construct n tau (bufferWords s.params.width n tau)).Inv := by
  obtain ⟨hnw, hn, htau⟩ := construct_fits_registers h.legal hl hcap
  have hnwords : (BitVec.ofNat 32 (bufferWords s.params.width n tau)).toNat = bufferWords s.params.width n tau :=
    by
    rw [BitVec.toNat_ofNat, Nat.mod_eq_of_lt hnw]
  have htaur : (BitVec.ofNat 7 tau).toNat = tau := by rw [BitVec.toNat_ofNat, Nat.mod_eq_of_lt htau]
  have hnumel : (BitVec.ofNat 32 n).toNat = n := by rw [BitVec.toNat_ofNat, Nat.mod_eq_of_lt hn]
  exact {
    legal := h.legal
    withinCapacity := by simpa only [State.construct_params, State.construct_nwords, hnwords] using hcap
    empty := fun hzero => by
      have hz := congrArg BitVec.toNat hzero
      rw [State.construct_nwords, hnwords] at hz
      exact absurd hz (Nat.succ_ne_zero _)
    constructed := fun _ => by
      simp only [State.construct_params, State.construct_taur, State.construct_numel, State.construct_nwords, htaur,
        hnumel, hnwords]
      exact ⟨hl, trivial⟩
    running := h.running
    halted := h.halted
    canonical := Memory.wf_nil
    extent := by simp }

/-! The invariants under each effect, each packet and each event. -/

theorem Effect.keeps_inv (h : Effect i s t) (hs : s.Inv) : t.Inv := by
  cases h with
  | halted _ _ ht | value _ _ ht => exact ht ▸ hs.withResponse _ _
  | wrote _ _ b hw hm ht =>
    have hext : ∀ x ∈ b, x.1 < s.nwords.toNat * s.params.width.bytes :=
      fun x hx => (hm x hx).elim id (hs.extent x)
    exact ht ▸ (hs.withBuf (hw hs.canonical) hext).withResponse _ _
  | constructed _ _ _ _ hl hcap ht => exact ht ▸ (hs.construct hl hcap).withResponse _ _
  | released _ _ ht => exact ht ▸ hs.released.withResponse _ _
  | faulted _ k ht => exact ht ▸ hs.haltedBy k _ _

theorem runPacket_keeps_inv (hs : s.Inv) (h : runPacket c s = .next t) : t.Inv := by
  rcases runPacket_cases h with ⟨i, -, heff⟩ | ⟨-, rfl⟩ | ⟨-, rfl⟩
  · exact heff.keeps_inv hs
  · exact hs.withResponse _ _
  · exact hs.haltedBy .illegalCommand _ _

/-- Settles O45, by the event taken: the effect of its packet, or the reset state with what the host holds. -/
theorem stepKeepsInvariants : Obligations.StepKeepsInvariants := by
  intro s t hs h
  rcases step_cases h with ⟨-, rfl⟩ | ⟨c, rest, -, hrun⟩ | ⟨rest, -, rfl⟩
  · exact hs
  · exact runPacket_keeps_inv (hs.withPorts rest s.responses) hrun
  · exact (State.Inv.resetOf hs.legal).withPorts rest s.responses

end Sys2Proof.Machine

/-! Changes of a state that a command does not see, so that it does the same before and after the change: of TAUR and NUMEL
for the codec commands (spec/10_state.md R24, R25), of the ports for every command (R31). -/

namespace Sys2Proof.Machine

/-- The outcome with its next state changed by `g`. -/
def Result.map (g : State → State) (r : Result) : Result :=
  match r with
  | .next s => .next (g s)
  | .fault f => .fault f
  | .refused x => .refused x

theorem Result.map_eq_next {g : State → State} {r : Result} {t : State} (h : Result.map g r = .next t) :
    ∃ u, r = .next u ∧ g u = t := by
  cases r with
  | next u => exact ⟨u, rfl, by injection h⟩
  | fault f => simp [Result.map] at h
  | refused x => simp [Result.map] at h

/-- A change of the state that leaves the parameters, BUF, NWORDS and FLT alone and commutes with a write of BUF, with a
response and with fault entry: all that the codec commands use. -/
structure CodecBlind (g : State → State) : Prop where
  params : ∀ s, (g s).params = s.params
  buf : ∀ s, (g s).buf = s.buf
  nwords : ∀ s, (g s).nwords = s.nwords
  flt : ∀ s, (g s).flt = s.flt
  withBuf : ∀ (s : State) (b : Memory), { g s with buf := b } = g { s with buf := b }
  respond : ∀ s code v, (g s).respond code v = g (s.respond code v)
  raiseFault : ∀ s k opc off, (g s).raiseFault k opc off = g (s.raiseFault k opc off)

namespace CodecBlind

variable {g : State → State} (hg : CodecBlind g) (s : State)

include hg

theorem bitCount : (g s).bitCount = s.bitCount := by
  rw [State.bitCount, State.bitCount, hg.params, hg.nwords]

theorem memRead (k : Nat) : (g s).memRead k = s.memRead k := by
  simp only [State.memRead, State.word, hg.params, hg.buf, hg.nwords]

theorem map_memWrite (k v : Nat) : g <$> s.memWrite k v = (g s).memWrite k v := by
  unfold State.memWrite
  rw [hg.withBuf, hg.nwords, hg.params, hg.buf]
  split <;> rfl

theorem readBit (i : Nat) : (g s).readBit i = s.readBit i := by
  simp only [State.readBit, hg.params, hg.memRead]

theorem readBlock (i len : Nat) : (g s).readBlock i len = s.readBlock i len := by
  simp only [State.readBlock, hg.params, hg.memRead]

theorem map_updateWord (i : Nat) (f : Nat → Nat) : g <$> s.updateWord i f = (g s).updateWord i f := by
  simp only [State.updateWord, hg.params, hg.memRead, map_bind, hg.map_memWrite]

theorem map_writeBlock (i len value : Nat) : g <$> s.writeBlock i len value = (g s).writeBlock i len value := by
  simp only [State.writeBlock, hg.params, hg.memRead]
  split
  · split
    · simp only [map_bind, hg.map_memWrite]
      simp only [← hg.map_memWrite s, bind_map_left]
    · simp only [map_bind, hg.map_memWrite]
  · rfl

theorem map_answerState (x : Except Fault State) : Result.map g (answerState x) = answerState (g <$> x) := by
  cases x with
  | ok u => exact congrArg Host.Outcome.next (hg.respond u codeOk 0).symm
  | error f => rfl

theorem map_answerValue (x : Except Fault Nat) : Result.map g (s.answerValue x) = (g s).answerValue x := by
  cases x with
  | ok v => exact congrArg Host.Outcome.next (hg.respond s codeOk v).symm
  | error f => rfl

theorem map_faultOf (k : Cause) (i : Instr) (off : Nat) :
    Result.map g (s.faultOf k i off) = (g s).faultOf k i off :=
  congrArg Host.Outcome.next (hg.raiseFault s k _ _).symm

theorem map_unlessHalted (run : Result) :
    Result.map g (s.unlessHalted run) = (g s).unlessHalted (Result.map g run) := by
  cases hf : s.flt with
  | true =>
    rw [State.unlessHalted_of_halted hf, State.unlessHalted_of_halted ((hg.flt s).trans hf), hg.respond]
    rfl
  | false => rw [State.unlessHalted_of_running hf, State.unlessHalted_of_running ((hg.flt s).trans hf)]

/-- The codec commands do the same before and after the change. -/
theorem map_exec {i : Instr} (hi : i.isCodec = true) : Result.map g (exec i s) = exec i (g s) := by
  have hite := fun (p : Prop) [Decidable p] (a b : Result) => apply_ite (Result.map g) p a b
  cases i with
  | setbit i | resetbit i =>
    simp only [exec, execSetbit, execResetbit, hg.map_unlessHalted, hite, hg.map_answerState, hg.map_updateWord,
      hg.map_faultOf, hg.bitCount, hg.params]
  | testbit i =>
    simp only [exec, execTestbit, hg.map_unlessHalted, hite, hg.map_answerValue, hg.readBit, hg.map_faultOf, hg.bitCount]
  | getblock i len =>
    simp only [exec, execGetblock, hg.map_unlessHalted, hite, hg.map_answerValue, hg.readBlock, hg.map_faultOf,
      hg.bitCount, hg.params]
  | setblock i len value =>
    simp only [exec, execSetblock, hg.map_unlessHalted, hite, hg.map_answerState, hg.map_writeBlock, hg.map_faultOf,
      hg.bitCount, hg.params]
  | _ => simp [Instr.isCodec] at hi

end CodecBlind

/-! The codec commands and TAUR, NUMEL. -/

/-- The state with another TAUR and NUMEL. -/
def State.withArrayRegisters (x : BitVec 7) (y : BitVec 32) (s : State) : State := { s with taur := x, numel := y }

theorem State.codecBlind_withArrayRegisters (x : BitVec 7) (y : BitVec 32) :
    CodecBlind (State.withArrayRegisters x y) where
  params _ := rfl
  buf _ := rfl
  nwords _ := rfl
  flt _ := rfl
  withBuf _ _ := rfl
  respond _ _ _ := rfl
  raiseFault _ _ _ _ := rfl

/-- The halted check answers in every state in which the command behind it does. -/
theorem State.unlessHalted_completes {s : State} {run : Result} (h : ∃ t, run = .next t) :
    ∃ t, s.unlessHalted run = .next t := by
  cases hf : s.flt with
  | true => exact ⟨_, State.unlessHalted_of_halted hf run⟩
  | false => rwa [State.unlessHalted_of_running hf]

/-- A codec command checks its range before it touches BUF, so it completes in every state. -/
theorem exec_completes_of_isCodec {i : Instr} (hi : i.isCodec = true) (s : State) : ∃ t, exec i s = .next t := by
  cases i with
  | setbit i | resetbit i =>
    refine State.unlessHalted_completes ?_
    split
    · next hr => exact ⟨_, by rw [State.updateWord_of_lt hr]; rfl⟩
    · exact ⟨_, rfl⟩
  | testbit i =>
    refine State.unlessHalted_completes ?_
    split
    · next hr => exact ⟨_, by rw [State.readBit, State.memRead_of_lt (State.wordIndex_lt hr)]; rfl⟩
    · exact ⟨_, rfl⟩
  | getblock i len =>
    refine State.unlessHalted_completes ?_
    split
    · next hl =>
      split
      · next hr =>
        obtain ⟨v, hv, -⟩ := State.readBlock_spec hl hr
        exact ⟨_, by rw [hv]; rfl⟩
      · exact ⟨_, rfl⟩
    · exact ⟨_, rfl⟩
  | setblock i len value =>
    refine State.unlessHalted_completes ?_
    split
    · next hl =>
      split
      · next hr =>
        obtain ⟨b, hb, -⟩ := State.writeBlock_spec value hl hr
        exact ⟨_, by rw [hb]; rfl⟩
      · exact ⟨_, rfl⟩
    · exact ⟨_, rfl⟩
  | _ => simp [Instr.isCodec] at hi

/-- Settles O52: another TAUR and NUMEL is a change the codec commands do not see. -/
theorem codecIgnoresArrayRegisters : Obligations.CodecIgnoresArrayRegisters := by
  intro i s x y hi
  obtain ⟨t, ht⟩ := exec_completes_of_isCodec hi s
  have hmap := (State.codecBlind_withArrayRegisters x y).map_exec s hi
  rw [ht] at hmap
  exact ⟨t, ht, hmap.symm⟩

/-! Every command and the ports. -/

/-- The state with the events `q` pending, and with the responses `rs` delivered before those it had. -/
def State.afterHistory (q : List HostEvent) (rs : List Response) (s : State) : State :=
  { s with input := q, responses := rs ++ s.responses }

/-- The state with nothing pending and nothing delivered. -/
def State.withoutHistory (s : State) : State := { s with input := [], responses := [] }

theorem State.afterHistory_withoutHistory (q : List HostEvent) (rs : List Response) (s : State) :
    s.withoutHistory.afterHistory q rs = { s with input := q, responses := rs } := by
  simp [State.afterHistory, State.withoutHistory]

theorem State.respond_afterHistory (q : List HostEvent) (rs : List Response) (s : State) (code : BitVec 8) (v : Nat) :
    (s.afterHistory q rs).respond code v = (s.respond code v).afterHistory q rs := by
  simp [State.afterHistory, State.respond]

theorem State.codecBlind_afterHistory (q : List HostEvent) (rs : List Response) :
    CodecBlind (State.afterHistory q rs) where
  params _ := rfl
  buf _ := rfl
  nwords _ := rfl
  flt _ := rfl
  withBuf _ _ := rfl
  respond := State.respond_afterHistory q rs
  raiseFault s k opc off :=
    State.respond_afterHistory q rs { s with flt := true, cause := k.code, fopc := opc, foff := off } k.code 0

/-- No command sees the ports: beside what the codec commands use, the others read and write registers alone. -/
theorem exec_afterHistory (q : List HostEvent) (rs : List Response) (i : Instr) (s : State) :
    Result.map (State.afterHistory q rs) (exec i s) = exec i (s.afterHistory q rs) := by
  have hg := State.codecBlind_afterHistory q rs
  have hite := fun (p : Prop) [Decidable p] (a b : Result) => apply_ite (Result.map (State.afterHistory q rs)) p a b
  cases hi : i.isCodec with
  | true => exact hg.map_exec s hi
  | false =>
    cases i with
    | construct n tau =>
      simp only [exec, execConstruct, hg.map_unlessHalted, hite, hg.map_answerState, hg.map_faultOf, hg.params]
      rfl
    | release =>
      simp only [exec, execRelease, hg.map_unlessHalted, hg.map_answerState]
      rfl
    | aget index =>
      simp only [exec, execAget, hg.map_unlessHalted, hite, hg.map_answerValue, hg.map_faultOf, hg.readBlock]
      rfl
    | aset index value =>
      simp only [exec, execAset, hg.map_unlessHalted, hite, hg.map_answerState, hg.map_faultOf, hg.map_writeBlock]
      rfl
    | getlen | gettau => exact (hg.map_unlessHalted s _).trans (congrArg _ (hg.map_answerValue s _))
    | status => exact hg.map_answerValue s (.ok s.statusWord)
    | _ => simp [Instr.isCodec] at hi

/-- A command that ends has appended one response and taken nothing off the port. -/
theorem Effect.ports {i : Instr} {s t : State} (h : Effect i s t) :
    ∃ r, t.responses = s.responses ++ [r] ∧ t.input = s.input := by
  cases h with
  | halted _ _ ht | value _ _ ht | wrote _ _ _ _ _ ht | constructed _ _ _ _ _ _ ht | released _ _ ht | faulted _ _ ht =>
    subst ht
    exact ⟨_, rfl, rfl⟩

/-- Settles O53: with either history the command does what it does from the state without history. -/
theorem historyDoesNotMatter : Obligations.HistoryDoesNotMatter := by
  intro i s t q rs h
  have hbase := exec_afterHistory s.input s.responses i s.withoutHistory
  rw [State.afterHistory_withoutHistory, h] at hbase
  obtain ⟨u, hu, rfl⟩ := Result.map_eq_next hbase
  obtain ⟨r, hr, -⟩ := (exec_effect hu).ports
  have hnew := exec_afterHistory q rs i s.withoutHistory
  rw [State.afterHistory_withoutHistory, hu] at hnew
  refine ⟨r, congrArg (s.responses ++ ·) hr, rfl, hnew.symm.trans ?_⟩
  rw [show rs ++ [r] = rs ++ u.responses from congrArg (rs ++ ·) hr.symm]
  rfl

end Sys2Proof.Machine

/-! Packets that decode: the round trip of every well-formed command, and the step that runs it (spec/20_memory.md R49;
spec/30_encoding.md R61, R64, R67; spec/60_exceptions.md R126). -/

namespace Sys2Proof

/-- A field that holds an operand which fits it gives the operand back (R61, R67). -/
theorem eq_toNat_of_field {b x : Nat} {field : BitVec b} (hx : x < 2 ^ b) (h : field = BitVec.ofNat b x) :
    x = field.toNat := by
  rw [h, BitVec.toNat_ofNat, Nat.mod_eq_of_lt hx]

/-- The packet of a well-formed command has the fields that command decodes from (R64). -/
theorem fieldsOf_encode {i : Instr} (h : i.WellFormed) : fieldsOf (encode i) i := by
  simp only [Instr.WellFormed, Instr.wellFormed] at h
  refine ⟨by cases i <;> exact Packet.opc_ofFields .., by cases i <;> exact Packet.rsv_ofFields .., ?_⟩
  cases i with
  | setbit off | resetbit off | testbit off | aget off =>
    exact ⟨Packet.val_ofFields .., Packet.len_ofFields ..,
      eq_toNat_of_field (of_decide_eq_true h) (Packet.off_ofFields ..)⟩
  | getblock off len | construct off len =>
    simp only [Bool.and_eq_true, decide_eq_true_eq] at h
    obtain ⟨hoff, hlen⟩ := h
    exact ⟨Packet.val_ofFields .., eq_toNat_of_field hoff (Packet.off_ofFields ..),
      eq_toNat_of_field hlen (Packet.len_ofFields ..)⟩
  | setblock off len value =>
    simp only [Bool.and_eq_true, decide_eq_true_eq] at h
    obtain ⟨⟨hoff, hlen⟩, hval⟩ := h
    exact ⟨eq_toNat_of_field hoff (Packet.off_ofFields ..), eq_toNat_of_field hlen (Packet.len_ofFields ..),
      eq_toNat_of_field hval (Packet.val_ofFields ..)⟩
  | aset off value =>
    simp only [Bool.and_eq_true, decide_eq_true_eq] at h
    obtain ⟨hoff, hval⟩ := h
    exact ⟨Packet.len_ofFields .., eq_toNat_of_field hoff (Packet.off_ofFields ..),
      eq_toNat_of_field hval (Packet.val_ofFields ..)⟩
  | release | getlen | gettau | status =>
    exact ⟨Packet.val_ofFields .., Packet.off_ofFields .., Packet.len_ofFields ..⟩

/-- A packet with a command's fields decodes to it: the converse of `decode_inv`. The opcode picks the row of R64, and the
fields pass that row's checks (R65). -/
theorem decode_of_fieldsOf {c : Packet} {i : Instr} (h : fieldsOf c i) : decode c = .ok i := by
  obtain ⟨hopc, hrsv, hfields⟩ := h
  rw [decode, Packet.needRsv_eq_ok]
  refine ⟨hrsv, ?_⟩
  cases i <;>
    simp [Packet.decodeFields, hopc, Instr.opcode, Packet.needLen, Packet.needOff, Packet.needVal, hfields]

/-- Every well-formed command survives encoding and decoding (R67). -/
theorem decode_encode {i : Instr} (h : i.WellFormed) : decode (encode i) = .ok i :=
  decode_of_fieldsOf (fieldsOf_encode h)

end Sys2Proof

namespace Sys2Proof.Machine

/-- A packet that decodes is executed as the command it decodes to (R126). -/
theorem runPacket_of_decode {c : Packet} {i : Instr} (h : decode c = .ok i) (s : State) :
    runPacket c s = exec i s := by
  simp only [runPacket, h]

/-- Settles O6: the step takes the packet off the port and runs what it decodes to. -/
theorem stepRunsDecodedCommand : Obligations.StepRunsDecodedCommand := by
  intro c rest i s hin hdec
  rw [step_of_command hin, runPacket_of_decode hdec]

/-- A whole packet delivered by `withFetchWord` is first on the command port, its 128 bits unchanged (log 5). -/
theorem State.withFetchWord_input (s : State) (c : Packet) :
    (s.withFetchWord 128 c.toNat).input = .command c :: s.input := by
  rw [State.withFetchWord, State.placePacket_input, Nat.mod_eq_of_lt c.isLt, BitVec.ofNat_toNat, BitVec.setWidth_eq]

/-- Settles O7: the step runs the packet placed first, which decodes to the command it was encoded from. -/
theorem stepRunsPlacedPacket : Obligations.StepRunsPlacedPacket := by
  intro i s hwf
  exact stepRunsDecodedCommand _ s.input i _ (State.withFetchWord_input s (encode i)) (decode_encode hwf)

end Sys2Proof.Machine

/-! BUF by words and as one stream of bits (spec/20_memory.md R41, R42). -/

namespace Sys2Proof.Machine

/-- Settles O16, by the read-after-write and frame laws of the word. -/
theorem wordWriteThenRead : Obligations.WordWriteThenRead := by
  intro k v s hk hv
  refine ⟨_, State.memWrite_of_lt hk v, ?_, fun j hj => ?_, fun a ha => ?_⟩
  · have hread : Memory.word s.params.width (s.buf.setWord s.params.width k v) k = v := by
      rw [Memory.word_setWord_self, Nat.mod_eq_of_lt hv]
    exact State.memRead_eq_ok.2 ⟨hk, hread.symm⟩
  · simp only [State.memRead, State.word, Memory.word_setWord_of_ne hj]
  · exact Memory.read_setWord_of_outside (by omega)

/-- A stream bit in range is that bit of the number `Bits(BUF)` (R42). -/
theorem State.testBit_bits {s : State} {n : Nat} (h : n < s.bitCount) : s.bits.testBit n = s.bit n := by
  have hn : n < s.nwords.toNat * s.params.width.bits := h
  rw [State.bits, Memory.testBit_bits, decide_eq_true hn, Bool.true_and, State.bit]

/-- Settles O17: `Bits(BUF)` holds the words side by side, and a block is a shifted and truncated part of it. -/
theorem bitStreamIsTheWords : Obligations.BitStreamIsTheWords := by
  intro s n hn
  refine ⟨State.testBit_bits hn, ?_⟩
  rintro i len j hj rfl
  rw [Nat.testBit_mod_two_pow, decide_eq_true hj, Bool.true_and, Nat.testBit_div_two_pow, Nat.add_comm]

end Sys2Proof.Machine

/-! The footprint of a block read (spec/20_memory.md R45). -/

namespace Sys2Proof.Machine

variable {s : State} {i len : Nat}

/-- GETBLOCK of a legal block in range answers what the block reads (R91). -/
theorem exec_getblock_of_le (hf : s.flt = false) (hl : legalLen s.params.width len) (hr : i + len ≤ s.bitCount) :
    exec (.getblock i len) s = s.answerValue (s.readBlock i len) := by
  rw [exec, execGetblock, State.unlessHalted_of_running hf, if_pos hl, if_pos hr]

/-- A MemRead sees BUF only through the word it names (R41). -/
theorem State.memRead_withBuf {b : Memory} {k : Nat} (h : b.word s.params.width k = s.word k) :
    State.memRead { s with buf := b } k = s.memRead k := by
  have hword : State.word { s with buf := b } k = s.word k := h
  rw [State.memRead, State.memRead, hword]

/-- A block read sees word `k`, and word `k + 1` only when the block straddles (R45). -/
theorem State.readBlock_withBuf {b : Memory}
    (hlow : b.word s.params.width (wordIndex s.params.width i) = s.word (wordIndex s.params.width i))
    (hhigh : straddles s.params.width i len →
      b.word s.params.width (wordIndex s.params.width i + 1) = s.word (wordIndex s.params.width i + 1)) :
    State.readBlock { s with buf := b } i len = s.readBlock i len := by
  unfold State.readBlock
  by_cases hs : straddles s.params.width i len
  · simp only [if_pos hs, State.memRead_withBuf hlow, State.memRead_withBuf (hhigh hs)]
  · simp only [if_neg hs, State.memRead_withBuf hlow]

/-- Settles O24: the block read in range gives one value, the same for both buffers. -/
theorem getblockFootprint : Obligations.GetblockFootprint := by
  intro i len s b hf hpos hle hr hlow hhigh
  have hl : legalLen s.params.width len := ⟨hpos, hle⟩
  obtain ⟨v, hv, -⟩ := State.readBlock_spec hl hr
  refine ⟨BitVec.ofNat 64 v, ?_, ?_⟩
  · rw [exec_getblock_of_le hf hl hr, hv]
    rfl
  · rw [exec_getblock_of_le (s := { s with buf := b }) hf hl hr, State.readBlock_withBuf hlow hhigh, hv]
    rfl

end Sys2Proof.Machine

/-! The bytes of BUF are given by its words, so a write of what is already there changes nothing (log 3). -/

namespace Sys2Proof.Machine

variable {m m' : Memory} {w : Width}

/-- Equal numbers read from the same addresses come from equal bytes. -/
theorem Memory.read_eq_of_readBytes_eq {a n : Nat} (h : m.readBytes a n = m'.readBytes a n) (b : Nat) (hab : a ≤ b)
    (hb : b < a + n) : m.read b = m'.read b := by
  induction n generalizing a with
  | zero => omega
  | succ n ih =>
    simp only [Memory.readBytes] at h
    have hlt := (m.read a).isLt
    have hlt' := (m'.read a).isLt
    rcases Nat.eq_or_lt_of_le hab with rfl | hlater
    · exact BitVec.eq_of_toNat_eq (by omega)
    · exact ih (a := a + 1) (by omega) hlater (by omega)

/-- Two canonical lists with the same words are the same list. -/
theorem Memory.eq_of_word_eq (hm : m.wf) (hm' : m'.wf) (h : ∀ k, m.word w k = m'.word w k) : m = m' := by
  refine Memory.eq_of_read_eq hm hm' fun a => ?_
  have hdiv := Nat.div_add_mod' a w.bytes
  have hmod := Nat.mod_lt a w.bytes_pos
  exact Memory.read_eq_of_readBytes_eq (h (a / w.bytes)) a (by omega) (by omega)

/-- Two canonical lists with the same stream bits are the same list (R42). -/
theorem Memory.eq_of_bit_eq (hm : m.wf) (hm' : m'.wf) (h : ∀ n, m.bit w n = m'.bit w n) : m = m' := by
  refine Memory.eq_of_word_eq (w := w) hm hm' fun k => Nat.eq_of_testBit_eq fun j => ?_
  rcases Nat.lt_or_ge j w.bits with hj | hj
  · have hbit := h (k * w.bits + j)
    rwa [Memory.bit_of_eq hj rfl, Memory.bit_of_eq hj rfl] at hbit
  · have hhigh (x : Memory) : (x.word w k).testBit j = false :=
      Nat.testBit_lt_two_pow ((Memory.word_lt w x k).trans_le (Nat.pow_le_pow_right (by decide) hj))
    rw [hhigh m, hhigh m']

variable {s : State} {i len value : Nat}

/-- A read-modify-write that leaves the word's value as it is leaves the state as it is. -/
theorem State.updateWord_eq_self {f : Nat → Nat} (hwf : s.buf.wf) (h : i < s.bitCount)
    (hf : f (s.word (wordIndex s.params.width i)) % 2 ^ s.params.width.bits = s.word (wordIndex s.params.width i)) :
    s.updateWord i f = .ok s := by
  have hbuf : s.buf.setWord s.params.width (wordIndex s.params.width i) (f (s.word (wordIndex s.params.width i))) =
      s.buf := by
    refine Memory.eq_of_word_eq (w := s.params.width) (Memory.wf_setWord hwf _ _ _) hwf fun k => ?_
    rw [Memory.word_setWord, hf]
    split
    · next hk => rw [hk, State.word]
    · rfl
  rw [State.updateWord_of_lt h, hbuf]

/-- A block write of the bits that are already there leaves the state as it is. -/
theorem State.writeBlock_eq_self (hwf : s.buf.wf) (hl : legalLen s.params.width len) (hr : i + len ≤ s.bitCount)
    (hbits : ∀ n, i ≤ n → n < i + len → s.bit n = value.testBit (n - i)) : s.writeBlock i len value = .ok s := by
  obtain ⟨b, hb, hwritten⟩ := State.writeBlock_spec value hl hr
  have hbuf : b = s.buf := by
    refine Memory.eq_of_bit_eq (w := s.params.width) (hwritten.wf hwf) hwf fun n => ?_
    rw [hwritten.bit]
    split
    · next hn => exact (hbits n hn.1 hn.2).symm
    · rfl
  rw [hb, hbuf]

end Sys2Proof.Machine

/-! The four writing commands on a running unit: what they run in range, and their faults out of range
(spec/40_bit_ops.md R81, R82; spec/41_block_ops.md R93; spec/42_packed_array.md R105). -/

namespace Sys2Proof.Machine

variable {s : State} {i len index value : Nat}

theorem exec_setbit_of_lt (hf : s.flt = false) (h : i < s.bitCount) :
    exec (.setbit i) s = answerState (s.updateWord i fun x => x ||| 1 <<< bitPos s.params.width i) := by
  rw [exec, execSetbit, State.unlessHalted_of_running hf, if_pos h]

theorem exec_setbit_of_ge (hf : s.flt = false) (h : s.bitCount ≤ i) :
    exec (.setbit i) s = .next (s.haltedBy 3 0x01 (BitVec.ofNat 32 i)) := by
  rw [exec, execSetbit, State.unlessHalted_of_running hf, if_neg (Nat.not_lt.2 h)]
  rfl

theorem exec_resetbit_of_lt (hf : s.flt = false) (h : i < s.bitCount) :
    exec (.resetbit i) s =
      answerState (s.updateWord i fun x => x &&& notWord s.params.width (1 <<< bitPos s.params.width i)) := by
  rw [exec, execResetbit, State.unlessHalted_of_running hf, if_pos h]

theorem exec_resetbit_of_ge (hf : s.flt = false) (h : s.bitCount ≤ i) :
    exec (.resetbit i) s = .next (s.haltedBy 3 0x02 (BitVec.ofNat 32 i)) := by
  rw [exec, execResetbit, State.unlessHalted_of_running hf, if_neg (Nat.not_lt.2 h)]
  rfl

theorem exec_setblock_of_le (hf : s.flt = false) (hl : legalLen s.params.width len) (hr : i + len ≤ s.bitCount) :
    exec (.setblock i len value) s = answerState (s.writeBlock i len value) := by
  rw [exec, execSetblock, State.unlessHalted_of_running hf, if_pos hl, if_pos hr]

theorem exec_setblock_of_not_legalLen (hf : s.flt = false) (hl : ¬ legalLen s.params.width len) :
    exec (.setblock i len value) s = .next (s.haltedBy 2 0x05 (BitVec.ofNat 32 i)) := by
  rw [exec, execSetblock, State.unlessHalted_of_running hf, if_neg hl]
  rfl

theorem exec_setblock_of_gt (hf : s.flt = false) (hl : legalLen s.params.width len) (hr : s.bitCount < i + len) :
    exec (.setblock i len value) s = .next (s.haltedBy 4 0x05 (BitVec.ofNat 32 i)) := by
  rw [exec, execSetblock, State.unlessHalted_of_running hf, if_pos hl, if_neg (Nat.not_le.2 hr)]
  rfl

theorem exec_aset_of_lt (hf : s.flt = false) (h : index < s.numel.toNat) :
    exec (.aset index value) s =
      answerState (s.writeBlock (elementOffset s.taur.toNat index) s.taur.toNat value) := by
  rw [exec, execAset, State.unlessHalted_of_running hf, if_pos h]

theorem exec_aset_of_ge (hf : s.flt = false) (h : s.numel.toNat ≤ index) :
    exec (.aset index value) s = .next (s.haltedBy 5 0x0B (BitVec.ofNat 32 index)) := by
  rw [exec, execAset, State.unlessHalted_of_running hf, if_neg (Nat.not_lt.2 h)]
  rfl

/-- On a constructed unit all elements lie in the words below the spare one (R101, R109). -/
theorem State.Inv.elements_le (hs : s.Inv) (hn : s.nwords ≠ 0) :
    s.numel.toNat * s.taur.toNat ≤ (s.nwords.toNat - 1) * s.params.width.bits := by
  obtain ⟨-, hwords⟩ := hs.constructed hn
  rw [hwords, bufferWords, Nat.add_sub_cancel]
  exact le_ceilDiv_mul _ s.params.width.bits_pos

/-- An element of a legal state is a legal block in range (R109). -/
theorem State.Inv.element_in_range (hs : s.Inv) (h : index < s.numel.toNat) :
    legalLen s.params.width s.taur.toNat ∧ elementOffset s.taur.toNat index + s.taur.toNat ≤ s.bitCount := by
  have hn : s.nwords ≠ 0 := fun hzero => by simp [(hs.empty hzero).2] at h
  refine ⟨(hs.constructed hn).1, ?_⟩
  calc elementOffset s.taur.toNat index + s.taur.toNat
      = (index + 1) * s.taur.toNat := (Nat.succ_mul _ _).symm
    _ ≤ s.numel.toNat * s.taur.toNat := Nat.mul_le_mul_right _ h
    _ ≤ (s.nwords.toNat - 1) * s.params.width.bits := hs.elements_le hn
    _ ≤ s.bitCount := Nat.mul_le_mul_right _ (Nat.sub_le _ _)

end Sys2Proof.Machine

/-! Writing the same twice is writing once (spec/20_memory.md R46). -/

namespace Sys2Proof.Machine

variable {s : State} {c : Instr} {i len index value : Nat}

/-- The command run twice in a row from `s` leaves the state of running it once, but for the responses (R46). -/
def IdempotentOn (c : Instr) (s : State) : Prop :=
  ∃ t u, exec c s = .next t ∧ exec c t = .next u ∧ u = { t with responses := u.responses }

/-- The state a writing command leaves: BUF is `b`, and OK was answered (R63). -/
def State.afterWrite (s : State) (b : Memory) : State := State.withResponse { s with buf := b } 0 0

/-- A write that changes BUF alone, and nothing when it is done again on the state its command leaves. -/
def WritesOnce (op : State → Except Fault State) (s : State) : Prop :=
  ∃ b, op s = .ok { s with buf := b } ∧ op (s.afterWrite b) = .ok (s.afterWrite b)

/-- A read-modify-write is done once when its change of a word, done again, is no change. -/
theorem writesOnce_updateWord {f : Nat → Nat} (hwf : s.buf.wf) (h : i < s.bitCount)
    (hf : ∀ x, f (f x % 2 ^ s.params.width.bits) % 2 ^ s.params.width.bits = f x % 2 ^ s.params.width.bits) :
    WritesOnce (fun x => x.updateWord i f) s := by
  refine ⟨_, State.updateWord_of_lt h f, State.updateWord_eq_self (Memory.wf_setWord hwf _ _ _) h ?_⟩
  have hword := Memory.word_setWord_self s.params.width s.buf (wordIndex s.params.width i)
    (f (s.word (wordIndex s.params.width i)))
  exact (congrArg (fun x => f x % 2 ^ s.params.width.bits) hword).trans ((hf _).trans hword.symm)

/-- A block write in range is done once: the second finds the bits already there. -/
theorem writesOnce_writeBlock (hwf : s.buf.wf) (hl : legalLen s.params.width len) (hr : i + len ≤ s.bitCount) :
    WritesOnce (fun x => x.writeBlock i len value) s := by
  obtain ⟨b, hb, hwritten⟩ := State.writeBlock_spec value hl hr
  refine ⟨b, hb, State.writeBlock_eq_self (hwritten.wf hwf) hl hr fun n hlow hhigh => ?_⟩
  exact (hwritten.bit n).trans (if_pos ⟨hlow, hhigh⟩)

/-- A command that answers a write done once is idempotent. -/
theorem idempotentOn_of_writesOnce {op : State → Except Fault State} (h : WritesOnce op s)
    (hfirst : exec c s = answerState (op s))
    (hagain : ∀ b, exec c (s.afterWrite b) = answerState (op (s.afterWrite b))) : IdempotentOn c s := by
  obtain ⟨b, hb, hb'⟩ := h
  refine ⟨s.afterWrite b, (s.afterWrite b).withResponse 0 0, ?_, ?_, rfl⟩
  · rw [hfirst, hb]
    rfl
  · rw [hagain, hb']
    rfl

/-- A command that faults is answered Halted the second time. -/
theorem idempotentOn_of_haltedBy {code opc : BitVec 8} {off : BitVec 32} (hc : c ≠ .status)
    (h : exec c s = .next (s.haltedBy code opc off)) : IdempotentOn c s :=
  ⟨s.haltedBy code opc off, (s.haltedBy code opc off).withResponse 8 0, h, exec_of_halted rfl hc, rfl⟩

theorem idempotentOn_setbit (hwf : s.buf.wf) (hf : s.flt = false) : IdempotentOn (.setbit i) s := by
  rcases Nat.lt_or_ge i s.bitCount with h | h
  · refine idempotentOn_of_writesOnce (writesOnce_updateWord hwf h fun x => ?_) (exec_setbit_of_lt hf h)
      fun b => exec_setbit_of_lt (s := s.afterWrite b) hf h
    simp only [Nat.or_mod_two_pow, Nat.mod_mod, Nat.or_assoc, Nat.or_self]
  · exact idempotentOn_of_haltedBy (by simp) (exec_setbit_of_ge hf h)

theorem idempotentOn_resetbit (hwf : s.buf.wf) (hf : s.flt = false) : IdempotentOn (.resetbit i) s := by
  rcases Nat.lt_or_ge i s.bitCount with h | h
  · refine idempotentOn_of_writesOnce (writesOnce_updateWord hwf h fun x => ?_) (exec_resetbit_of_lt hf h)
      fun b => exec_resetbit_of_lt (s := s.afterWrite b) hf h
    simp only [Nat.and_mod_two_pow, Nat.mod_mod, Nat.and_assoc, Nat.and_self]
  · exact idempotentOn_of_haltedBy (by simp) (exec_resetbit_of_ge hf h)

theorem idempotentOn_setblock (hwf : s.buf.wf) (hf : s.flt = false) : IdempotentOn (.setblock i len value) s := by
  by_cases hl : legalLen s.params.width len
  · rcases Nat.lt_or_ge s.bitCount (i + len) with hr | hr
    · exact idempotentOn_of_haltedBy (by simp) (exec_setblock_of_gt hf hl hr)
    · exact idempotentOn_of_writesOnce (writesOnce_writeBlock hwf hl hr) (exec_setblock_of_le hf hl hr)
        fun b => exec_setblock_of_le (s := s.afterWrite b) hf hl hr
  · exact idempotentOn_of_haltedBy (by simp) (exec_setblock_of_not_legalLen hf hl)

theorem idempotentOn_aset (hs : s.Inv) (hf : s.flt = false) : IdempotentOn (.aset index value) s := by
  rcases Nat.lt_or_ge index s.numel.toNat with h | h
  · obtain ⟨hl, hr⟩ := hs.element_in_range h
    exact idempotentOn_of_writesOnce (writesOnce_writeBlock hs.canonical hl hr) (exec_aset_of_lt hf h)
      fun b => exec_aset_of_lt (s := s.afterWrite b) hf h
  · exact idempotentOn_of_haltedBy (by simp) (exec_aset_of_ge hf h)

/-- Settles O29, command by command: in range the write is done once, out of range the unit is halted by the first. -/
theorem writesAreIdempotent : Obligations.WritesAreIdempotent := by
  intro i s hs hf hi
  cases i with
  | setbit i => exact idempotentOn_setbit hs.canonical hf
  | resetbit i => exact idempotentOn_resetbit hs.canonical hf
  | setblock i len value => exact idempotentOn_setblock hs.canonical hf
  | aset index value => exact idempotentOn_aset hs hf
  | _ => simp [Instr.isWrite] at hi

end Sys2Proof.Machine

/-! The two directions of the packet format: a command and its packet determine each other (spec/30_encoding.md R61, R64,
R65, R67). -/

namespace Sys2Proof

variable {c : Packet} {i : Instr}

/-- Settles O1: the packet of a well-formed command has the fields the command decodes from. -/
theorem decodeEncodeRoundTrip : Obligations.DecodeEncodeRoundTrip :=
  fun _ h => decode_encode h

/-- A packet that is written as the encoding of a well-formed command decodes to it. -/
theorem decode_of_encode_eq (h : i.WellFormed) (he : encode i = c) : decode c = .ok i :=
  he ▸ decode_encode h

/-- An operand read from a field fits that field. -/
theorem wellFormed_of_fieldsOf (h : fieldsOf c i) : i.WellFormed := by
  obtain ⟨-, -, hfields⟩ := h
  have hoff := c.off.isLt
  have hlen := c.len.isLt
  have hval := c.val.isLt
  cases i <;> simp_all [Instr.WellFormed, Instr.wellFormed]

/-- The fields of a command leave no bit of its packet free (R65). -/
theorem encode_of_fieldsOf (h : fieldsOf c i) : encode i = c := by
  obtain ⟨hopc, hrsv, hfields⟩ := h
  rw [← Packet.ofFields_self c hrsv, hopc]
  cases i <;> simp [encode, Instr.opcode, hfields]

/-- Settles O2, by the fields a packet that decodes must have. -/
theorem decodedPacketIsItsEncoding : Obligations.DecodedPacketIsItsEncoding := by
  intro c i h
  have hfields := decode_inv h
  exact ⟨wellFormed_of_fieldsOf hfields, encode_of_fieldsOf hfields⟩

/-- Settles O4: each word is the encoding of its well-formed command. -/
theorem specWordsDecode : Obligations.SpecWordsDecode :=
  ⟨decode_of_encode_eq (by decide) (by decide), decode_of_encode_eq (by decide) (by decide),
    decode_of_encode_eq (by decide) (by decide), decode_of_encode_eq (by decide) (by decide),
    decode_of_encode_eq (by decide) (by decide)⟩

end Sys2Proof

/-! The opcode table: the packets of a row are those that decode to its command (spec/30_encoding.md R64, R65, R66). -/

namespace Sys2Proof

variable {c : Packet} {i : Instr}

/-- Decoding is having the fields of the command: OPC, the operands, zeros elsewhere (R64, R65). -/
theorem decode_eq_ok_iff : decode c = .ok i ↔ fieldsOf c i :=
  ⟨decode_inv, decode_of_fieldsOf⟩

/-- The twelve commands in the order of the table, each with the operands that the packet's fields hold. -/
def Packet.candidates (c : Packet) : List Instr :=
  [.setbit c.off.toNat, .resetbit c.off.toNat, .testbit c.off.toNat, .getblock c.off.toNat c.len.toNat,
    .setblock c.off.toNat c.len.toNat c.val.toNat, .construct c.off.toNat c.len.toNat, .release, .aget c.off.toNat,
    .aset c.off.toNat c.val.toNat, .getlen, .gettau, .status]

theorem Packet.nodup_candidates (c : Packet) : c.candidates.Nodup := by
  simp [Packet.candidates]

theorem mem_candidates_of_decode (h : decode c = .ok i) : i ∈ c.candidates := by
  obtain ⟨-, -, hfields⟩ := decode_inv h
  cases i <;> simp [Packet.candidates, hfields]

theorem and_of_eq_allOnes {n : Nat} {m : BitVec n} (h : m = BitVec.allOnes n) (x : BitVec n) : x &&& m = x := by
  rw [h, BitVec.and_allOnes]

/-- Row by row, the packet hits the row exactly when it has the fields of the row's command: the mask is all ones on OPC, on
RSV and on the fields that R64 wants 0, and 0 on the operands. -/
theorem hits_iff_fieldsOf (c : Packet) :
    List.Forall₂ (fun r i => r.mnemonic = i.mnemonic ∧ (r.hits c = true ↔ fieldsOf c i)) tableRows c.candidates := by
  simp only [tableRows, Packet.candidates, List.forall₂_cons, List.Forall₂.nil, and_true]
  refine ⟨⟨rfl, ?_⟩, ⟨rfl, ?_⟩, ⟨rfl, ?_⟩, ⟨rfl, ?_⟩, ⟨rfl, ?_⟩, ⟨rfl, ?_⟩, ⟨rfl, ?_⟩, ⟨rfl, ?_⟩, ⟨rfl, ?_⟩, ⟨rfl, ?_⟩,
    ⟨rfl, ?_⟩, ⟨rfl, ?_⟩⟩
  all_goals
    rw [TableRow.hits_iff]
    simp [fieldsOf, Instr.opcode, Packet.opc, Packet.len, Packet.rsv, Packet.off, Packet.val, and_of_eq_allOnes,
      and_comm, and_left_comm, and_assoc]

/-- Two lists that go in step are filtered in step. -/
theorem map_filter_of_forall₂ {α β γ : Type} {l : List α} {m : List β} {p : α → Bool} {q : β → Bool} {f : α → γ}
    {g : β → γ} (h : List.Forall₂ (fun a b => f a = g b ∧ (p a = true ↔ q b = true)) l m) :
    (l.filter p).map f = (m.filter q).map g := by
  induction h with
  | nil => rfl
  | cons hab _ ih =>
    obtain ⟨hf, hp⟩ := hab
    simp only [List.filter_cons, hp]
    split
    · rw [List.map_cons, List.map_cons, hf, ih]
    · exact ih

/-- The rows a packet hits carry the mnemonics of the candidates it decodes to. -/
theorem mnemonics_of_hits (c : Packet) :
    (tableRows.filter (fun r => r.hits c)).map (fun r => r.mnemonic) =
      (c.candidates.filter (fun i => decode c = .ok i)).map Instr.mnemonic := by
  refine map_filter_of_forall₂ ((hits_iff_fieldsOf c).imp fun r i ⟨hm, hi⟩ => ⟨hm, ?_⟩)
  rw [decide_eq_true_iff, decode_eq_ok_iff, hi]

/-- Settles O3: of the candidates, which are twelve different commands, the packet decodes to one or to none. -/
theorem decodeAgreesWithOpcodeTable : Obligations.DecodeAgreesWithOpcodeTable := by
  intro c
  rw [mnemonics_of_hits]
  cases hdec : decode c with
  | error e => simp
  | ok i =>
    have honly : c.candidates.filter (fun j => Except.ok i = (.ok j : Except Reject Instr)) = [i] := by
      simp only [Except.ok.injEq, eq_comm (a := i), List.filter_eq,
        List.count_eq_one_of_mem c.nodup_candidates (mem_candidates_of_decode hdec), List.replicate_one]
    rw [honly, List.map_singleton]

/-- A packet that hits no row decodes to no command (R65). -/
theorem decode_error_of_no_hit (h : ∀ r ∈ tableRows, c &&& r.mask ≠ r.pattern) : ∃ e, decode c = .error e := by
  have hrows : tableRows.filter (fun r => r.hits c) = [] :=
    List.filter_eq_nil_iff.2 fun r hr => by simpa [TableRow.hits] using h r hr
  have htable := decodeAgreesWithOpcodeTable c
  rw [hrows] at htable
  cases hdec : decode c with
  | error e => exact ⟨e, rfl⟩
  | ok i => simp [hdec] at htable

end Sys2Proof

namespace Sys2Proof.Machine

/-- A packet that decodes to no command is illegal (R65). -/
theorem runPacket_of_error {c : Packet} {e : Reject} (h : decode c = .error e) (s : State) :
    runPacket c s = s.illegalPacket c := by
  simp only [runPacket, h]

/-- Settles O5: a packet that hits no row decodes to no command, and a running unit takes the fault. -/
theorem illegalPacketFaults : Obligations.IllegalPacketFaults := by
  refine ⟨fun c rest s hf hin hrows => ?_, by decide, by decide⟩
  obtain ⟨e, hdec⟩ := decode_error_of_no_hit hrows
  rw [step_of_command hin, runPacket_of_error hdec]
  exact State.illegalPacket_of_running hf

end Sys2Proof.Machine

/-! One response for each packet (spec/30_encoding.md R63; spec/60_exceptions.md R120, R124). -/

namespace Sys2Proof.Machine

/-- A command that ends has appended one response, and one whose CODE is not 0 has RES 0 and changed no register and no
word (R120, R124). -/
theorem Effect.response {i : Instr} {s t : State} (h : Effect i s t) :
    ∃ r, t.responses = s.responses ++ [r] ∧
      (r.code ≠ 0 → r.res = 0 ∧ t.buf = s.buf ∧ t.taur = s.taur ∧ t.numel = s.numel ∧ t.nwords = s.nwords) := by
  cases h with
  | halted _ _ ht | faulted _ _ ht =>
    subst ht
    exact ⟨_, rfl, fun _ => ⟨rfl, rfl, rfl, rfl, rfl⟩⟩
  | value _ _ ht | wrote _ _ _ _ _ ht | constructed _ _ _ _ _ _ ht | released _ _ ht =>
    subst ht
    exact ⟨_, rfl, fun hcode => absurd rfl hcode⟩

/-- Settles O13, by all that a packet can do: a command's effect, or the answer to an illegal packet. -/
theorem oneResponsePerPacket : Obligations.OneResponsePerPacket := by
  intro c rest s t hin h
  rw [step_of_command hin] at h
  rcases runPacket_cases h with ⟨i, -, heff⟩ | ⟨-, rfl⟩ | ⟨-, rfl⟩
  · exact heff.response
  · exact ⟨_, rfl, fun _ => ⟨rfl, rfl, rfl, rfl, rfl⟩⟩
  · exact ⟨_, rfl, fun _ => ⟨rfl, rfl, rfl, rfl, rfl⟩⟩

end Sys2Proof.Machine

/-! No command is refused, and one stops only outside the invariants (spec/60_exceptions.md R126, R151; log 8). -/

namespace Sys2Proof.Machine

variable {s : State} {i : Instr}

/-- A command that reads and writes no element completes in every state. -/
theorem exec_completes_of_not_element (hget : ∀ index, i ≠ .aget index) (hset : ∀ index value, i ≠ .aset index value)
    (s : State) : ∃ t, exec i s = .next t := by
  cases i with
  | setbit _ | resetbit _ | testbit _ | getblock _ _ | setblock _ _ _ => exact exec_completes_of_isCodec rfl s
  | construct n tau =>
    refine State.unlessHalted_completes ?_
    split
    · split
      · exact ⟨_, rfl⟩
      · exact ⟨_, rfl⟩
    · exact ⟨_, rfl⟩
  | release | getlen | gettau => exact State.unlessHalted_completes ⟨_, rfl⟩
  | status => exact ⟨_, rfl⟩
  | aget index => exact absurd rfl (hget index)
  | aset index value => exact absurd rfl (hset index value)

/-- On a legal state every command completes: an element in range is a legal block in range (R109). -/
theorem exec_completes_of_inv (hs : s.Inv) (i : Instr) : ∃ t, exec i s = .next t := by
  cases i with
  | aget index =>
    refine State.unlessHalted_completes ?_
    split
    · next h =>
      obtain ⟨hl, hr⟩ := hs.element_in_range h
      obtain ⟨v, hv, -⟩ := State.readBlock_spec hl hr
      exact ⟨_, by rw [hv]; rfl⟩
    · exact ⟨_, rfl⟩
  | aset index value =>
    refine State.unlessHalted_completes ?_
    split
    · next h =>
      obtain ⟨hl, hr⟩ := hs.element_in_range h
      obtain ⟨b, hb, -⟩ := State.writeBlock_spec value hl hr
      exact ⟨_, by rw [hb]; rfl⟩
    · exact ⟨_, rfl⟩
  | _ => exact exec_completes_of_not_element (by simp) (by simp) s

theorem Result.ne_refused_of_completes {run : Result} (h : ∃ t, run = .next t) (r : Refusal) : run ≠ .refused r := by
  obtain ⟨t, rfl⟩ := h
  simp

theorem answerState_ne_refused (x : Except Fault State) (r : Refusal) : answerState x ≠ .refused r := by
  cases x <;> simp [answerState]

theorem State.answerValue_ne_refused (s : State) (x : Except Fault Nat) (r : Refusal) :
    s.answerValue x ≠ .refused r := by
  cases x <;> simp [State.answerValue]

theorem State.faultOf_ne_refused (s : State) (k : Cause) (i : Instr) (off : Nat) (r : Refusal) :
    s.faultOf k i off ≠ .refused r := by
  simp [State.faultOf]

theorem State.unlessHalted_ne_refused {run : Result} {r : Refusal} (h : run ≠ .refused r) :
    s.unlessHalted run ≠ .refused r := by
  cases hf : s.flt with
  | true => simp [State.unlessHalted_of_halted hf]
  | false => rwa [State.unlessHalted_of_running hf]

/-- AGET and ASET end in an answer, a fault entry or a fault of the model, the other commands in a next state. -/
theorem exec_ne_refused (i : Instr) (s : State) (r : Refusal) : exec i s ≠ .refused r := by
  cases i with
  | aget index =>
    refine State.unlessHalted_ne_refused ?_
    split
    · exact State.answerValue_ne_refused _ _ r
    · exact State.faultOf_ne_refused _ _ _ _ r
  | aset index value =>
    refine State.unlessHalted_ne_refused ?_
    split
    · exact answerState_ne_refused _ r
    · exact State.faultOf_ne_refused _ _ _ _ r
  | _ => exact Result.ne_refused_of_completes (exec_completes_of_not_element (by simp) (by simp) s) r

/-- Settles O48: no branch refuses, and on a legal state every command completes. -/
theorem nothingRefused : Obligations.NothingRefused := by
  refine ⟨exec_ne_refused, fun i s f hfault hs => ?_⟩
  obtain ⟨t, ht⟩ := exec_completes_of_inv hs i
  rw [ht] at hfault
  cases hfault

end Sys2Proof.Machine

/-! The pseudo-commands of the assembler (spec/30_encoding.md R68). -/

namespace Sys2Proof

/-- `W` fits the field LEN, so a packet can name a whole word (R61). -/
theorem Width.bits_lt_256 (w : Width) : w.bits < 256 := w.bits_le.trans_lt (by decide)

end Sys2Proof

namespace Sys2Proof.Machine

variable {w : Width} {l : AsmLine} {c : Packet}

/-- A line is assembled when the command it expands to is well formed, here said as `p`, and rejected otherwise. -/
theorem AsmLine.assemble_eq_ite {p : Prop} [Decidable p] (h : (l.expand w).WellFormed ↔ p) :
    l.assemble w = if p then some (encode (l.expand w)) else none :=
  if_congr h rfl rfl

theorem AsmLine.assemble_eq_none : l.assemble w = none ↔ ¬ (l.expand w).WellFormed := by
  simp [AsmLine.assemble]

/-- The packet of an assembled line decodes to the command the line expands to. -/
theorem AsmLine.decode_of_assemble (h : l.assemble w = some c) : decode c = .ok (l.expand w) := by
  rw [AsmLine.assemble, Option.ite_none_right_eq_some] at h
  obtain ⟨hwf, he⟩ := h
  exact decode_of_encode_eq hwf (Option.some.inj he)

/-- Settles O56: a row of R68 is rejected exactly when an operand of its expansion does not fit its field. -/
theorem pseudoCommandsAssemble : Obligations.PseudoCommandsAssemble := by
  refine ⟨fun w k => AsmLine.assemble_eq_ite ?_, fun w k value => AsmLine.assemble_eq_ite ?_,
    fun w i => AsmLine.assemble_eq_ite ?_, fun w i j width => AsmLine.assemble_eq_ite ?_,
    fun w i j width value => AsmLine.assemble_eq_ite ?_, fun w size => AsmLine.assemble_eq_ite ?_,
    fun w k i j width size value => ⟨rfl, rfl, rfl, rfl, rfl, rfl⟩, fun w l c => AsmLine.decode_of_assemble,
    fun w l => AsmLine.assemble_eq_none⟩
  all_goals simp [AsmLine.expand, Instr.WellFormed, Instr.wellFormed, Width.bits_lt_256]

end Sys2Proof.Machine

/-! Whole words: GETWORD and SETWORD (spec/30_encoding.md R68; spec/41_block_ops.md R91, R93). -/

namespace Sys2Proof.Machine

variable {s : State} {w : Width} {k value : Nat}

/-- A word is the `W` stream bits that begin at `k * W` (R42). -/
theorem Memory.testBit_word (w : Width) (m : Memory) (k j : Nat) :
    (m.word w k).testBit j = (decide (j < w.bits) && m.bit w (k * w.bits + j)) := by
  by_cases hj : j < w.bits
  · rw [Memory.bit_of_eq hj rfl, decide_eq_true hj, Bool.true_and]
  · have hhigh : 2 ^ w.bits ≤ 2 ^ j := Nat.pow_le_pow_right (by decide) (Nat.le_of_not_lt hj)
    rw [Nat.testBit_lt_two_pow ((Memory.word_lt w m k).trans_le hhigh), decide_eq_false hj, Bool.false_and]

theorem legalLen_bits (w : Width) : legalLen w w.bits := ⟨w.bits_pos, le_rfl⟩

/-- A word that exists is a block in range. -/
theorem State.word_in_range (h : k < s.nwords.toNat) : k * s.params.width.bits + s.params.width.bits ≤ s.bitCount := by
  rw [← Nat.succ_mul]
  exact Nat.mul_le_mul_right _ h

/-- The block of `W` bits at `k * W` is word `k`. -/
theorem State.readBlock_word (h : k < s.nwords.toNat) :
    s.readBlock (k * s.params.width.bits) s.params.width.bits = .ok (s.word k) := by
  obtain ⟨v, hv, hbits⟩ := State.readBlock_spec (legalLen_bits _) (State.word_in_range h)
  have hword : v = s.word k := Nat.eq_of_testBit_eq fun j => (hbits j).trans (Memory.testBit_word _ _ _ _).symm
  rw [hv, hword]

/-- Replacing the block of `W` bits at `k * W` replaces word `k` by the value mod `2^W`. -/
theorem BlockWritten.word_self {m b : Memory} (h : BlockWritten w m b (k * w.bits) w.bits value) :
    b.word w k = value % 2 ^ w.bits := by
  refine Nat.eq_of_testBit_eq fun j => ?_
  rw [Memory.testBit_word, Nat.testBit_mod_two_pow, h.bit]
  by_cases hj : j < w.bits
  · rw [if_pos (by omega), Nat.add_sub_cancel_left]
  · simp [hj]

/-- It leaves every other word as it was. -/
theorem BlockWritten.word_of_ne {m b : Memory} (h : BlockWritten w m b (k * w.bits) w.bits value) {j : Nat}
    (hj : j ≠ k) : b.word w j = m.word w j := by
  refine Nat.eq_of_testBit_eq fun p => ?_
  rw [Memory.testBit_word, Memory.testBit_word]
  by_cases hp : p < w.bits
  · obtain ⟨hindex, -⟩ := wordIndex_bitPos_of_eq hp (rfl : j * w.bits + p = _)
    rw [h.bit, if_neg]
    rintro ⟨hlow, hhigh⟩
    obtain ⟨hindex', -⟩ := wordIndex_bitPos_of_eq (w := w) (n := j * w.bits + p) (k := k)
      (p := j * w.bits + p - k * w.bits) (by omega) (by omega)
    exact hj (hindex.symm.trans hindex')
  · simp [hp]

/-- Settles O57: word `k` is the block of `W` bits at `k * W`. -/
theorem wholeWordPseudoCommands : Obligations.WholeWordPseudoCommands := by
  intro k value s hf hk
  have hr := State.word_in_range hk
  have hl := legalLen_bits s.params.width
  obtain ⟨b, hb, hwritten⟩ := State.writeBlock_spec value hl hr
  refine ⟨?_, b, ?_, hwritten.word_self, fun j hj => hwritten.word_of_ne hj⟩
  · rw [AsmLine.expand, exec_getblock_of_le hf hl hr, State.readBlock_word hk]
    rfl
  · rw [AsmLine.expand, exec_setblock_of_le hf hl hr, hb]
    rfl

end Sys2Proof.Machine

/-! The single-bit commands (spec/40_bit_ops.md R81 to R84). -/

namespace Sys2Proof.Machine

variable {s : State} {w : Width} {m b : Memory} {i v : Nat} {x : Bool}

/-- Buffer `b` is `m` with stream bit `i` made `x`: the word of bit `i` is now `v`, every other word, every other stream
bit and every byte outside that word are as they were (R45). -/
structure BitReplaced (w : Width) (m b : Memory) (i v : Nat) (x : Bool) : Prop where
  word_self : b.word w (wordIndex w i) = v
  word_of_ne : ∀ k, k ≠ wordIndex w i → b.word w k = m.word w k
  bit : ∀ n, b.bit w n = if n = i then x else m.bit w n
  read_outside : ∀ a, ¬ (wordIndex w i * w.bytes ≤ a ∧ a < wordIndex w i * w.bytes + w.bytes) → b.read a = m.read a

/-- Two stream bits of one word are the same bit when their positions are. -/
theorem eq_iff_bitPos_eq {n : Nat} (h : wordIndex w n = wordIndex w i) : n = i ↔ bitPos w n = bitPos w i := by
  refine ⟨fun heq => by rw [heq], fun hpos => ?_⟩
  rw [← wordIndex_mul_add_bitPos w n, h, hpos, wordIndex_mul_add_bitPos]

theorem two_pow_bitPos_lt (w : Width) (n : Nat) : 2 ^ bitPos w n < 2 ^ w.bits :=
  Nat.pow_lt_pow_right (by decide) (bitPos_lt w n)

/-- Writing the word of bit `i` with a value that differs from it in that bit alone replaces that bit. -/
theorem bitReplaced_setWord (hv : v < 2 ^ w.bits)
    (hbit : ∀ p < w.bits, v.testBit p = if p = bitPos w i then x else (m.word w (wordIndex w i)).testBit p) :
    BitReplaced w m (m.setWord w (wordIndex w i) v) i v x where
  word_self := by rw [Memory.word_setWord_self, Nat.mod_eq_of_lt hv]
  word_of_ne _ hk := Memory.word_setWord_of_ne hk m v
  bit n := by
    rw [Memory.bit_setWord]
    by_cases hword : wordIndex w n = wordIndex w i
    · rw [if_pos hword, hbit _ (bitPos_lt w n), Memory.bit, hword]
      exact if_congr (eq_iff_bitPos_eq hword).symm rfl rfl
    · rw [if_neg hword, if_neg fun heq => hword (congrArg _ heq)]
  read_outside _ ha := Memory.read_setWord_of_outside (by omega)

/-- A read-modify-write in range that changes bit `i` of its word alone, answered OK. -/
theorem answerState_updateWord_bitReplaced {f : Nat → Nat} (h : i < s.bitCount)
    (hv : f (s.word (wordIndex s.params.width i)) < 2 ^ s.params.width.bits)
    (hbit : ∀ p < s.params.width.bits, (f (s.word (wordIndex s.params.width i))).testBit p =
      if p = bitPos s.params.width i then x else (s.word (wordIndex s.params.width i)).testBit p) :
    ∃ b, answerState (s.updateWord i f) = .next (s.afterWrite b) ∧
      BitReplaced s.params.width s.buf b i (f (s.word (wordIndex s.params.width i))) x := by
  refine ⟨_, ?_, bitReplaced_setWord hv hbit⟩
  rw [State.updateWord_of_lt h]
  rfl

/-- SETBIT in range (R81). -/
theorem exec_setbit_bitReplaced (hf : s.flt = false) (h : i < s.bitCount) :
    ∃ b, exec (.setbit i) s = .next (s.afterWrite b) ∧
      BitReplaced s.params.width s.buf b i
        (s.word (wordIndex s.params.width i) ||| 2 ^ bitPos s.params.width i) true := by
  rw [exec_setbit_of_lt hf h, Nat.one_shiftLeft]
  refine answerState_updateWord_bitReplaced h (Nat.or_lt_two_pow (Memory.word_lt _ _ _) (two_pow_bitPos_lt _ _))
    fun p _ => ?_
  rw [Nat.testBit_or, Nat.testBit_two_pow]
  rcases eq_or_ne p (bitPos s.params.width i) with rfl | hp
  · simp
  · simp [hp, hp.symm]

/-- RESETBIT in range (R82). -/
theorem exec_resetbit_bitReplaced (hf : s.flt = false) (h : i < s.bitCount) :
    ∃ b, exec (.resetbit i) s = .next (s.afterWrite b) ∧
      BitReplaced s.params.width s.buf b i
        (s.word (wordIndex s.params.width i) &&& (2 ^ s.params.width.bits - 1 - 2 ^ bitPos s.params.width i))
        false := by
  rw [exec_resetbit_of_lt hf h, Nat.one_shiftLeft]
  refine answerState_updateWord_bitReplaced h (Nat.and_le_left.trans_lt (Memory.word_lt _ _ _)) fun p hlt => ?_
  rw [Nat.testBit_and, testBit_notWord (two_pow_bitPos_lt _ _), Nat.testBit_two_pow]
  rcases eq_or_ne p (bitPos s.params.width i) with rfl | hp
  · simp
  · simp [hp, hp.symm, hlt]

/-- The bit a TESTBIT reads is the stream bit as 0 or 1. -/
theorem State.readBit_of_lt (h : i < s.bitCount) : s.readBit i = .ok (s.bit i).toNat := by
  rw [State.readBit, State.memRead_of_lt (State.wordIndex_lt h), State.bit, Memory.bit, Nat.toNat_testBit,
    ← Nat.shiftRight_eq_div_pow, ← Nat.and_one_is_mod]
  rfl

/-- TESTBIT in range answers the stream bit (R83). -/
theorem exec_testbit_of_lt (hf : s.flt = false) (h : i < s.bitCount) :
    exec (.testbit i) s = .next (s.withResponse 0 (if s.bit i then 1 else 0)) := by
  rw [exec, execTestbit, State.unlessHalted_of_running hf, if_pos h, State.readBit_of_lt h]
  cases s.bit i <;> rfl

theorem exec_testbit_of_ge (hf : s.flt = false) (h : s.bitCount ≤ i) :
    exec (.testbit i) s = .next (s.haltedBy 3 0x03 (BitVec.ofNat 32 i)) := by
  rw [exec, execTestbit, State.unlessHalted_of_running hf, if_neg (Nat.not_lt.2 h)]
  rfl

/-- Settles O18: `or` with the bit's power of two changes that bit of its word alone. -/
theorem setbitSetsOneBit : Obligations.SetbitSetsOneBit := by
  intro i s hf
  refine ⟨fun h => ?_, exec_setbit_of_ge hf, fun hi => decode_encode (i := .setbit i) (decide_eq_true hi)⟩
  obtain ⟨b, hb, hr⟩ := exec_setbit_bitReplaced hf h
  exact ⟨b, hb, hr.word_self, hr.word_of_ne, hr.bit, hr.read_outside⟩

/-- Settles O19: `and` with the complement of the bit's power of two changes that bit of its word alone. -/
theorem resetbitClearsOneBit : Obligations.ResetbitClearsOneBit := by
  intro i s hf
  refine ⟨fun h => ?_, exec_resetbit_of_ge hf, fun hi => decode_encode (i := .resetbit i) (decide_eq_true hi)⟩
  obtain ⟨b, hb, hr⟩ := exec_resetbit_bitReplaced hf h
  exact ⟨b, hb, hr.word_self, hr.word_of_ne, hr.bit, hr.read_outside⟩

/-- Settles O20: the answer is the stream bit, which is bit `i mod W` of word `i div W`. -/
theorem testbitReturnsOneBit : Obligations.TestbitReturnsOneBit := fun i _ hf =>
  ⟨exec_testbit_of_lt hf, exec_testbit_of_ge hf, fun hi => decode_encode (i := .testbit i) (decide_eq_true hi)⟩

/-- TESTBIT after a writing command answers the bit of the buffer it left. -/
theorem exec_testbit_afterWrite (hf : s.flt = false) (h : i < s.bitCount) :
    exec (.testbit i) (s.afterWrite b) =
      .next ((s.afterWrite b).withResponse 0 (if b.bit s.params.width i then 1 else 0)) :=
  exec_testbit_of_lt (s := s.afterWrite b) hf h

/-- After a command that has replaced bit `i`, TESTBIT answers the new value there and every other bit as before (R84). -/
theorem testbit_after_bitReplaced (hf : s.flt = false) (h : i < s.bitCount)
    (hr : BitReplaced s.params.width s.buf b i v x) :
    exec (.testbit i) (s.afterWrite b) = .next ((s.afterWrite b).withResponse 0 (if x then 1 else 0)) ∧
      ∀ j, j < s.bitCount → j ≠ i → ∃ r, exec (.testbit j) s = .next (s.withResponse 0 r) ∧
        exec (.testbit j) (s.afterWrite b) = .next ((s.afterWrite b).withResponse 0 r) := by
  refine ⟨?_, fun j hj hne => ⟨_, exec_testbit_of_lt hf hj, ?_⟩⟩
  · rw [exec_testbit_afterWrite hf h, hr.bit, if_pos rfl]
  · rw [exec_testbit_afterWrite hf hj, hr.bit, if_neg hne, State.bit]

/-- Settles O21: either command replaces bit `i` alone, and TESTBIT answers the bits of the buffer it leaves. -/
theorem setResetTestLaws : Obligations.SetResetTestLaws := by
  intro i s hf h
  obtain ⟨b, hb, hset⟩ := exec_setbit_bitReplaced hf h
  obtain ⟨c, hc, hreset⟩ := exec_resetbit_bitReplaced hf h
  exact ⟨⟨_, hb, testbit_after_bitReplaced hf h hset⟩, ⟨_, hc, testbit_after_bitReplaced hf h hreset⟩⟩

end Sys2Proof.Machine

/-! The block commands on a running unit: the words they read and write, and their faults (spec/41_block_ops.md R90,
R91, R93). -/

namespace Sys2Proof.Machine

variable {s : State} {b : Memory} {i len value : Nat}

theorem wellFormed_getblock : (Instr.getblock i len).WellFormed ↔ fitsOff i ∧ fitsLen len := by
  simp [Instr.WellFormed, Instr.wellFormed]

theorem wellFormed_setblock : (Instr.setblock i len value).WellFormed ↔ fitsOff i ∧ fitsLen len ∧ fitsVal value := by
  simp [Instr.WellFormed, Instr.wellFormed, and_assoc]

theorem exec_getblock_of_not_legalLen (hf : s.flt = false) (hl : ¬ legalLen s.params.width len) :
    exec (.getblock i len) s = .next (s.haltedBy 2 0x04 (BitVec.ofNat 32 i)) := by
  rw [exec, execGetblock, State.unlessHalted_of_running hf, if_neg hl]
  rfl

theorem exec_getblock_of_gt (hf : s.flt = false) (hl : legalLen s.params.width len) (hr : s.bitCount < i + len) :
    exec (.getblock i len) s = .next (s.haltedBy 4 0x04 (BitVec.ofNat 32 i)) := by
  rw [exec, execGetblock, State.unlessHalted_of_running hf, if_pos hl, if_neg (Nat.not_le.2 hr)]
  rfl

theorem State.word_lt (s : State) (k : Nat) : s.word k < 2 ^ s.params.width.bits := Memory.word_lt _ _ _

/-- A legal block is not empty, so one in range begins in a word that exists. -/
theorem State.wordIndex_lt_of_block (hl : legalLen s.params.width len) (hr : i + len ≤ s.bitCount) :
    wordIndex s.params.width i < s.nwords.toNat :=
  State.wordIndex_lt ((Nat.lt_add_of_pos_right hl.1).trans_le hr)

/-- The bits of one word a block read takes (R91). -/
theorem State.readBlock_of_not_straddles (hl : legalLen s.params.width len) (hr : i + len ≤ s.bitCount)
    (hs : ¬ straddles s.params.width i len) :
    s.readBlock i len =
      .ok (s.word (wordIndex s.params.width i) / 2 ^ bitPos s.params.width i % 2 ^ len) := by
  rw [← Nat.shiftRight_eq_div_pow, ← Nat.and_two_pow_sub_one_eq_mod, ← mask_eq s.params.width]
  simp only [State.readBlock, if_pos hl, if_neg hs, State.memRead_of_lt (State.wordIndex_lt_of_block hl hr)]
  rfl

/-- The bits of two words a straddling block read joins (R91). -/
theorem State.readBlock_of_straddles (hl : legalLen s.params.width len) (hr : i + len ≤ s.bitCount)
    (hs : straddles s.params.width i len) :
    s.readBlock i len =
      .ok ((s.word (wordIndex s.params.width i) / 2 ^ bitPos s.params.width i |||
        s.word (wordIndex s.params.width i + 1) * 2 ^ (s.params.width.bits - bitPos s.params.width i)
          % 2 ^ s.params.width.bits) % 2 ^ len) := by
  rw [← Nat.shiftRight_eq_div_pow, ← Nat.and_two_pow_sub_one_eq_mod, ← mask_eq s.params.width, ← Nat.shiftLeft_eq]
  simp only [State.readBlock, if_pos hl, if_pos hs, State.memRead_of_lt (State.wordIndex_lt_of_block hl hr),
    State.memRead_of_lt (State.wordIndex_succ_lt hr hs)]
  rfl

/-- Settles O22, by whether the block straddles a word boundary; the faults in the order of their checks. -/
theorem getblockReadsWords : Obligations.GetblockReadsWords := by
  intro i len s hf
  refine ⟨fun hpos hle hr => ?_, exec_getblock_of_not_legalLen hf,
    fun hpos hle hr => exec_getblock_of_gt hf ⟨hpos, hle⟩ hr, fun hi hlen => ?_⟩
  · rw [exec_getblock_of_le hf ⟨hpos, hle⟩ hr]
    rcases Nat.lt_or_ge s.params.width.bits (i % s.params.width.bits + len) with hs | hs
    · rw [if_neg (Nat.not_le.2 hs), State.readBlock_of_straddles ⟨hpos, hle⟩ hr hs]
      rfl
    · rw [if_pos hs, State.readBlock_of_not_straddles ⟨hpos, hle⟩ hr (Nat.not_lt.2 hs)]
      rfl
  · exact decode_encode (i := .getblock i len) (wellFormed_getblock.2 ⟨hi, hlen⟩)

/-- The word a block write rewrites (R93). -/
theorem State.writeBlock_of_not_straddles (hl : legalLen s.params.width len) (hr : i + len ≤ s.bitCount)
    (hs : ¬ straddles s.params.width i len) :
    s.writeBlock i len value = .ok { s with
      buf := s.buf.setWord s.params.width (wordIndex s.params.width i)
        ((s.word (wordIndex s.params.width i) &&&
            notWord s.params.width ((2 ^ len - 1) * 2 ^ bitPos s.params.width i)) |||
          value % 2 ^ len * 2 ^ bitPos s.params.width i) } := by
  have hk := State.wordIndex_lt_of_block hl hr
  simp only [State.writeBlock, if_pos hl, if_neg hs, State.memRead_of_lt hk, mask_eq, Nat.shiftLeft_eq]
  exact State.memWrite_of_lt hk _

/-- The two words a straddling block write rewrites (R93). -/
theorem State.writeBlock_of_straddles (hl : legalLen s.params.width len) (hr : i + len ≤ s.bitCount)
    (hs : straddles s.params.width i len) :
    s.writeBlock i len value = .ok { s with
      buf := (s.buf.setWord s.params.width (wordIndex s.params.width i)
        ((s.word (wordIndex s.params.width i) &&&
            notWord s.params.width ((2 ^ len - 1) * 2 ^ bitPos s.params.width i % 2 ^ s.params.width.bits)) |||
          value % 2 ^ len * 2 ^ bitPos s.params.width i % 2 ^ s.params.width.bits)).setWord
        s.params.width (wordIndex s.params.width i + 1)
        ((s.word (wordIndex s.params.width i + 1) &&&
            notWord s.params.width ((2 ^ len - 1) / 2 ^ (s.params.width.bits - bitPos s.params.width i))) |||
          value % 2 ^ len / 2 ^ (s.params.width.bits - bitPos s.params.width i)) } := by
  have hk := State.wordIndex_lt_of_block hl hr
  have hk' := State.wordIndex_succ_lt hr hs
  simp only [State.writeBlock, if_pos hl, if_pos hs, State.memRead_of_lt hk, State.memRead_of_lt hk', mask_eq, shlWord,
    Nat.shiftLeft_eq, Nat.shiftRight_eq_div_pow, bind, Except.bind, State.memWrite_of_lt hk]
  exact State.memWrite_eq_ok.2 ⟨hk', rfl⟩

/-- A word with some bits cleared and new bits put there is a word. -/
theorem State.merged_lt {k a x : Nat} (hx : x < 2 ^ s.params.width.bits) :
    s.word k &&& a ||| x < 2 ^ s.params.width.bits :=
  Nat.or_lt_two_pow (Nat.and_le_left.trans_lt (s.word_lt k)) hx

/-- A value of `len` bits shifted to its place inside one word is a word. -/
theorem block_shifted_lt {w : Width} (hs : ¬ straddles w i len) (value : Nat) :
    value % 2 ^ len * 2 ^ bitPos w i < 2 ^ w.bits := calc
  value % 2 ^ len * 2 ^ bitPos w i < 2 ^ len * 2 ^ bitPos w i :=
    Nat.mul_lt_mul_of_pos_right (Nat.mod_lt _ (Nat.two_pow_pos _)) (Nat.two_pow_pos _)
  _ = 2 ^ (bitPos w i + len) := by rw [← pow_add, Nat.add_comm]
  _ ≤ 2 ^ w.bits := Nat.pow_le_pow_right (by decide) (Nat.not_lt.1 hs)

/-- The upper part of a value of `len` bits is a word. -/
theorem block_upper_lt {w : Width} (hl : legalLen w len) (value t : Nat) :
    value % 2 ^ len / 2 ^ t < 2 ^ w.bits := calc
  value % 2 ^ len / 2 ^ t ≤ value % 2 ^ len := Nat.div_le_self _ _
  _ < 2 ^ len := Nat.mod_lt _ (Nat.two_pow_pos _)
  _ ≤ 2 ^ w.bits := Nat.pow_le_pow_right (by decide) hl.2

/-- A word reads back as written. -/
theorem Memory.word_setWord_of_lt {w : Width} {m : Memory} {k v : Nat} (hv : v < 2 ^ w.bits) :
    (m.setWord w k v).word w k = v := by
  rw [Memory.word_setWord_self, Nat.mod_eq_of_lt hv]

/-- The buffer a block write leaves is the one it answers. -/
theorem State.buf_eq_of_writeBlock {t : State} (hb : s.writeBlock i len value = .ok { s with buf := b })
    (ht : s.writeBlock i len value = .ok t) : b = t.buf :=
  congrArg State.buf (Except.ok.inj (hb.symm.trans ht))

/-- SETBLOCK in range performs its block write, answers OK and changes BUF alone (R93). -/
theorem exec_setblock_blockWritten (value : Nat) (hf : s.flt = false) (hl : legalLen s.params.width len)
    (hr : i + len ≤ s.bitCount) :
    ∃ b, exec (.setblock i len value) s = .next (s.afterWrite b) ∧
      s.writeBlock i len value = .ok { s with buf := b } ∧ BlockWritten s.params.width s.buf b i len value := by
  obtain ⟨b, hb, hwritten⟩ := State.writeBlock_spec value hl hr
  refine ⟨b, ?_, hb, hwritten⟩
  rw [exec_setblock_of_le hf hl hr, hb]
  rfl

/-- Settles O25, by whether the block straddles a word boundary; the faults in the order of their checks. -/
theorem setblockWritesWords : Obligations.SetblockWritesWords := by
  intro i len value s hf
  refine ⟨fun hpos hle hr => ?_, exec_setblock_of_not_legalLen hf,
    fun hpos hle hr => exec_setblock_of_gt hf ⟨hpos, hle⟩ hr, fun hi hlen hvalue => ?_⟩
  · obtain ⟨b, hexec, hb, hwritten⟩ := exec_setblock_blockWritten value hf ⟨hpos, hle⟩ hr
    refine ⟨b, hexec, fun hs => ?_, fun hs => ?_, hwritten.read⟩
    · rw [State.buf_eq_of_writeBlock hb (State.writeBlock_of_not_straddles ⟨hpos, hle⟩ hr hs)]
      exact ⟨Memory.word_setWord_of_lt (State.merged_lt (block_shifted_lt hs value)),
        fun k hk => Memory.word_setWord_of_ne hk _ _⟩
    · rw [State.buf_eq_of_writeBlock hb (State.writeBlock_of_straddles ⟨hpos, hle⟩ hr hs)]
      refine ⟨?_, ?_, fun k hk hk' => ?_⟩
      · rw [Memory.word_setWord_of_ne (Nat.ne_add_one _)]
        exact Memory.word_setWord_of_lt (State.merged_lt (Nat.mod_lt _ (Nat.two_pow_pos _)))
      · exact Memory.word_setWord_of_lt (State.merged_lt (block_upper_lt ⟨hpos, hle⟩ value _))
      · rw [Memory.word_setWord_of_ne hk', Memory.word_setWord_of_ne hk, State.word]
  · exact decode_encode (i := .setblock i len value) (wellFormed_setblock.2 ⟨hi, hlen, hvalue⟩)

end Sys2Proof.Machine

/-! The block commands on the bit stream (spec/41_block_ops.md R92, R94, R95). -/

namespace Sys2Proof.Machine

variable {s : State} {b : Memory} {i len value j n : Nat}

/-- Bit `j` of the block of `len` bits at `i` is stream bit `i + j` (R92). -/
theorem State.testBit_block (hr : i + len ≤ s.bitCount) (j : Nat) :
    (s.bits / 2 ^ i % 2 ^ len).testBit j = (decide (j < len) && s.bit (i + j)) := by
  rw [Nat.testBit_mod_two_pow, Nat.testBit_div_two_pow, Nat.add_comm j i]
  by_cases hj : j < len
  · rw [State.testBit_bits (by omega)]
  · simp [hj]

/-- A block read in range gives the block of `Bits(BUF)` (R92). -/
theorem State.readBlock_eq_block (hl : legalLen s.params.width len) (hr : i + len ≤ s.bitCount) :
    s.readBlock i len = .ok (s.bits / 2 ^ i % 2 ^ len) := by
  obtain ⟨v, hv, hbits⟩ := State.readBlock_spec hl hr
  have hblock : v = s.bits / 2 ^ i % 2 ^ len :=
    Nat.eq_of_testBit_eq fun j => (hbits j).trans (State.testBit_block hr j).symm
  rw [hv, hblock]

/-- GETBLOCK in range answers the block of `Bits(BUF)` (R92). -/
theorem exec_getblock_eq_block (hf : s.flt = false) (hl : legalLen s.params.width len) (hr : i + len ≤ s.bitCount) :
    exec (.getblock i len) s = .next (s.withResponse 0 (BitVec.ofNat 64 (s.bits / 2 ^ i % 2 ^ len))) := by
  rw [exec_getblock_of_le hf hl hr, State.readBlock_eq_block hl hr]
  rfl

/-- Settles O23: the block read is a part of `Bits(BUF)`, and at most `W <= 64` bits of it fit the response. -/
theorem getblockReadsBitStream : Obligations.GetblockReadsBitStream := by
  intro i len s hf hpos hle hr
  refine ⟨exec_getblock_eq_block hf ⟨hpos, hle⟩ hr, fun j hj => ?_⟩
  have hj64 : j < 64 := hj.trans_le (hle.trans s.params.width.bits_le)
  rw [BitVec.getLsbD_ofNat, State.testBit_block hr, decide_eq_true hj, decide_eq_true hj64, Bool.true_and,
    Bool.true_and]

/-- The block written is the value, truncated (R95). -/
theorem BlockWritten.block_self (h : BlockWritten s.params.width s.buf b i len value) (hr : i + len ≤ s.bitCount) :
    State.bits { s with buf := b } / 2 ^ i % 2 ^ len = value % 2 ^ len := by
  refine Nat.eq_of_testBit_eq fun j => ?_
  rw [State.testBit_block (s := { s with buf := b }) hr, Nat.testBit_mod_two_pow, State.bit, h.bit]
  by_cases hj : j < len
  · rw [if_pos (by omega), Nat.add_sub_cancel_left]
  · simp [hj]

/-- A block disjoint from the one written is as it was (R95). -/
theorem BlockWritten.block_of_disjoint (h : BlockWritten s.params.width s.buf b i len value) (hr : j + n ≤ s.bitCount)
    (hd : j + n ≤ i ∨ i + len ≤ j) :
    State.bits { s with buf := b } / 2 ^ j % 2 ^ n = s.bits / 2 ^ j % 2 ^ n := by
  refine Nat.eq_of_testBit_eq fun p => ?_
  rw [State.testBit_block (s := { s with buf := b }) hr, State.testBit_block hr, State.bit, h.bit]
  by_cases hp : p < n
  · rw [if_neg (by omega), State.bit]
  · simp [hp]

/-- `Bits(BUF)` is the sum of the bits below a block, the block, and the bits above it, each in its place (R42). -/
theorem State.bits_eq_sum_blocks (hn : s.bitCount = i + len + n) :
    s.bits = s.bits / 2 ^ 0 % 2 ^ i + (s.bits / 2 ^ i % 2 ^ len) * 2 ^ i +
      (s.bits / 2 ^ (i + len) % 2 ^ n) * 2 ^ (i + len) := by
  have hlt : s.bits < 2 ^ (i + len + n) := hn ▸ Memory.bits_lt _ _ _
  calc s.bits
      = s.bits % 2 ^ (i + len + n) := (Nat.mod_eq_of_lt hlt).symm
    _ = s.bits % 2 ^ i + 2 ^ i * (s.bits / 2 ^ i % 2 ^ len) + 2 ^ (i + len) * (s.bits / 2 ^ (i + len) % 2 ^ n) := by
        rw [pow_add 2 (i + len), Nat.mod_mul, pow_add 2 i, Nat.mod_mul]
    _ = _ := by rw [pow_zero, Nat.div_one, Nat.mul_comm (2 ^ i), Nat.mul_comm (2 ^ (i + len))]

/-- Writing a block takes the old one out of `Bits(BUF)` and puts the truncated value in its place (R94). -/
theorem BlockWritten.bits_eq (h : BlockWritten s.params.width s.buf b i len value) (hr : i + len ≤ s.bitCount) :
    State.bits { s with buf := b } =
      s.bits - (s.bits / 2 ^ i % 2 ^ len) * 2 ^ i + (value % 2 ^ len) * 2 ^ i := by
  obtain ⟨n, hn⟩ := Nat.exists_eq_add_of_le hr
  have hbelow := h.block_of_disjoint (j := 0) (n := i) (by omega) (.inl (by omega))
  have habove := h.block_of_disjoint (j := i + len) (n := n) (by omega) (.inr le_rfl)
  have hold := State.bits_eq_sum_blocks hn
  have hnew := State.bits_eq_sum_blocks (s := { s with buf := b }) hn
  rw [hbelow, h.block_self hr, habove] at hnew
  omega

/-- Settles O26: the bits written are those of the value, and `Bits(BUF)` is what lies below, in and above the block. -/
theorem setblockWritesBitStream : Obligations.SetblockWritesBitStream := by
  intro i len value s hf hpos hle hr
  obtain ⟨b, hexec, -, hwritten⟩ := exec_setblock_blockWritten value hf ⟨hpos, hle⟩ hr
  exact ⟨b, hexec, hwritten.bit, hwritten.bits_eq hr⟩

/-- GETBLOCK after a writing command answers the block of the buffer it left. -/
theorem exec_getblock_afterWrite (hf : s.flt = false) (hl : legalLen s.params.width len) (hr : i + len ≤ s.bitCount) :
    exec (.getblock i len) (s.afterWrite b) = .next ((s.afterWrite b).withResponse 0
      (BitVec.ofNat 64 (State.bits { s with buf := b } / 2 ^ i % 2 ^ len))) :=
  exec_getblock_eq_block (s := s.afterWrite b) hf hl hr

/-- Settles O27: SETBLOCK makes its block the value truncated, and leaves every disjoint block as it was. -/
theorem setblockThenGetblock : Obligations.SetblockThenGetblock := by
  intro i len value s hf hpos hle hr
  obtain ⟨b, hexec, -, hwritten⟩ := exec_setblock_blockWritten value hf ⟨hpos, hle⟩ hr
  refine ⟨_, hexec, ?_, fun j n hn hnle hjr hd => ⟨_, exec_getblock_eq_block hf ⟨hn, hnle⟩ hjr, ?_⟩⟩
  · rw [exec_getblock_afterWrite hf ⟨hpos, hle⟩ hr, hwritten.block_self hr]
  · rw [exec_getblock_afterWrite hf ⟨hn, hnle⟩ hjr, hwritten.block_of_disjoint hjr hd]

end Sys2Proof.Machine

/-! The single-bit commands as blocks of one bit (spec/41_block_ops.md R96). -/

namespace Sys2Proof.Machine

variable {s : State} {w : Width} {i x p : Nat}

theorem legalLen_one (w : Width) : legalLen w 1 := ⟨le_rfl, w.bits_pos⟩

/-- One bit lies in one word. -/
theorem not_straddles_one (w : Width) (i : Nat) : ¬ straddles w i 1 :=
  Nat.not_lt.2 (bitPos_lt w i)

/-- SETBLOCK of one bit is a read-modify-write of its word: the bit cleared, then the value's lowest bit put there. -/
theorem exec_setblock_one (value : Nat) (hf : s.flt = false) (h : i < s.bitCount) :
    exec (.setblock i 1 value) s = answerState (s.updateWord i fun x =>
      (x &&& notWord s.params.width (1 <<< bitPos s.params.width i)) ||| value % 2 * 2 ^ bitPos s.params.width i) := by
  have hl := legalLen_one s.params.width
  rw [exec_setblock_of_le hf hl h, State.writeBlock_of_not_straddles hl h (not_straddles_one _ _),
    State.updateWord_of_lt h, Nat.one_shiftLeft, pow_one, Nat.one_mul]

/-- Clearing a bit of a word before setting it makes no difference. -/
theorem and_notWord_or_two_pow (hx : x < 2 ^ w.bits) (hp : p < w.bits) :
    (x &&& notWord w (2 ^ p)) ||| 2 ^ p = x ||| 2 ^ p := by
  refine Nat.eq_of_testBit_eq fun j => ?_
  rw [Nat.testBit_or, Nat.testBit_or, Nat.testBit_and, testBit_notWord (Nat.pow_lt_pow_right (by decide) hp)]
  rcases Nat.lt_or_ge j w.bits with hj | hj
  · cases x.testBit j <;> cases (2 ^ p).testBit j <;> simp [hj]
  · rw [Nat.testBit_lt_two_pow (hx.trans_le (Nat.pow_le_pow_right (by decide) hj)), Bool.false_and]

theorem exec_setbit_eq_setblock (hf : s.flt = false) (h : i < s.bitCount) :
    exec (.setbit i) s = exec (.setblock i 1 1) s := by
  rw [exec_setbit_of_lt hf h, exec_setblock_one 1 hf h, State.updateWord_of_lt h, State.updateWord_of_lt h,
    Nat.one_shiftLeft, Nat.one_mod, Nat.one_mul, and_notWord_or_two_pow (s.word_lt _) (bitPos_lt _ _)]

theorem exec_resetbit_eq_setblock (hf : s.flt = false) (h : i < s.bitCount) :
    exec (.resetbit i) s = exec (.setblock i 1 0) s := by
  simp only [exec_resetbit_of_lt hf h, exec_setblock_one 0 hf h, Nat.zero_mod, Nat.zero_mul, Nat.or_zero]

theorem exec_testbit_eq_getblock (hf : s.flt = false) (h : i < s.bitCount) :
    exec (.testbit i) s = exec (.getblock i 1) s := by
  rw [exec_testbit_of_lt hf h, exec_getblock_eq_block hf (legalLen_one _) h, pow_one, ← Nat.toNat_testBit,
    State.testBit_bits h]
  cases s.bit i <;> rfl

/-- Settles O28, command by command; out of range each faults with the cause of its own family. -/
theorem bitCommandsAreBlocksOfOne : Obligations.BitCommandsAreBlocksOfOne := by
  intro i s hf
  refine ⟨fun h => ⟨exec_setbit_eq_setblock hf h, exec_resetbit_eq_setblock hf h, exec_testbit_eq_getblock hf h⟩,
    fun h => ?_⟩
  have hl := legalLen_one s.params.width
  have hr : s.bitCount < i + 1 := Nat.lt_succ_of_le h
  exact ⟨exec_setbit_of_ge hf h, exec_setblock_of_gt hf hl hr, exec_resetbit_of_ge hf h, exec_setblock_of_gt hf hl hr,
    exec_testbit_of_ge hf h, exec_getblock_of_gt hf hl hr⟩

end Sys2Proof.Machine

/-! The sizing rule of a Packed Array (spec/42_packed_array.md R101). -/

namespace Sys2Proof.Machine

/-- `ceilDiv a b` is the least number of words of `b` bits that hold `a` bits (R9). -/
theorem ceilDiv_le_iff {a b d : Nat} (hb : 0 < b) : ceilDiv a b ≤ d ↔ a ≤ d * b := by
  rw [Nat.mul_comm d, ← ceilDiv_le_iff_le_mul hb, Nat.ceilDiv_eq_add_pred_div, ceilDiv]

/-- Settles O30: the words without the spare one are `ceil(n * tau / W)`, the fewest that hold the bits. -/
theorem bufferHasOneSpareWord : Obligations.BufferHasOneSpareWord := fun w n tau =>
  ⟨ceilDiv (n * tau) w.bits, rfl, le_ceilDiv_mul _ w.bits_pos, fun _ hd => (ceilDiv_le_iff w.bits_pos).2 hd⟩

end Sys2Proof.Machine

/-! CONSTRUCT and RELEASE: the new array, its faults, and the unit left empty (spec/42_packed_array.md R102, R103). -/

namespace Sys2Proof.Machine

variable {s : State} {n tau : Nat}

theorem wellFormed_construct : (Instr.construct n tau).WellFormed ↔ fitsOff n ∧ fitsLen tau := by
  simp [Instr.WellFormed, Instr.wellFormed]

theorem exec_construct_of_not_legalLen (hf : s.flt = false) (hl : ¬ legalLen s.params.width tau) :
    exec (.construct n tau) s = .next (s.haltedBy 6 0x08 (BitVec.ofNat 32 n)) := by
  rw [exec, execConstruct, State.unlessHalted_of_running hf, if_neg hl]
  rfl

theorem exec_construct_of_gt (hf : s.flt = false) (hl : legalLen s.params.width tau)
    (hcap : s.params.maxWords < bufferWords s.params.width n tau) :
    exec (.construct n tau) s = .next (s.haltedBy 7 0x08 (BitVec.ofNat 32 n)) := by
  rw [exec, execConstruct, State.unlessHalted_of_running hf, if_pos hl, if_neg (Nat.not_le.2 hcap)]
  rfl

/-- Settles O31: an array with room fits the registers, and its buffer has nothing listed; the faults in the order of
their checks. -/
theorem constructMakesZeroArray : Obligations.ConstructMakesZeroArray := by
  intro n tau s hf hlegal hn
  refine ⟨fun hpos hle hcap => ?_, exec_construct_of_not_legalLen hf,
    fun hpos hle hcap => exec_construct_of_gt hf ⟨hpos, hle⟩ hcap,
    fun htau => decode_encode (i := .construct n tau) (wellFormed_construct.2 ⟨hn, htau⟩)⟩
  obtain ⟨hnw, -, htau⟩ := construct_fits_registers hlegal ⟨hpos, hle⟩ hcap
  exact ⟨_, _, _, _, exec_construct_of_fits hf ⟨hpos, hle⟩ hcap, (eq_toNat_of_field hnw rfl).symm,
    (eq_toNat_of_field htau rfl).symm, (eq_toNat_of_field hn rfl).symm, fun k _ => Memory.word_nil _ k,
    fun a _ => Memory.read_nil a⟩

/-- With no word accessible MemWrite answers for none (R41). -/
theorem State.memWrite_ne_ok_of_nwords_zero (h : s.nwords = 0) (k v : Nat) (u : State) : s.memWrite k v ≠ .ok u := by
  intro hw
  obtain ⟨hk, -⟩ := State.memWrite_eq_ok.1 hw
  simp [h] at hk

/-- Settles O32: the three array registers are 0, and with NWORDS 0 there is no word to read or write. -/
theorem releaseEmptiesUnit : Obligations.ReleaseEmptiesUnit := fun _ hf =>
  ⟨[], exec_release_of_running hf, State.memRead_ne_ok_of_nwords_zero rfl, State.memWrite_ne_ok_of_nwords_zero rfl,
    decode_encode (i := .release) rfl⟩

end Sys2Proof.Machine

/-! Where the elements lie (spec/42_packed_array.md R100, R109). -/

namespace Sys2Proof.Machine

variable {s : State} {tau index i j : Nat}

/-- An element ends where the next begins, so before the element of any larger index. -/
theorem element_end_le (h : i < j) : i * tau + tau ≤ j * tau :=
  (Nat.succ_mul i tau).symm.trans_le (Nat.mul_le_mul_right _ h)

/-- Two elements share no stream bit. -/
theorem elements_disjoint (h : j ≠ i) : j * tau + tau ≤ i * tau ∨ i * tau + tau ≤ j * tau :=
  h.lt_or_gt.imp element_end_le element_end_le

/-- Only a constructed unit has an element (R28 point 2). -/
theorem State.Inv.nwords_pos (hs : s.Inv) (h : index < s.numel.toNat) : 0 < s.nwords.toNat := by
  refine Nat.pos_of_ne_zero fun hzero => ?_
  obtain ⟨-, hnumel⟩ := hs.empty (BitVec.eq_of_toNat_eq hzero)
  simp [hnumel] at h

/-- Settles O37: an element ends within the elements, which lie below the last word, which a constructed unit has. -/
theorem elementsLieBelowSpareWord : Obligations.ElementsLieBelowSpareWord := by
  intro index s hs h
  have hpos := hs.nwords_pos h
  have hn : s.nwords ≠ 0 := fun hzero => by simp [hzero] at hpos
  exact ⟨element_end_le h, hs.elements_le hn,
    Nat.mul_lt_mul_of_pos_right (Nat.sub_lt hpos Nat.one_pos) s.params.width.bits_pos⟩

end Sys2Proof.Machine

/-! AGET and ASET as the block commands at the offset of the element (spec/42_packed_array.md R104, R105, R108, R110,
R111). -/

namespace Sys2Proof.Machine

variable {s : State} {b : Memory} {c : Instr} {index value : Nat}

theorem wellFormed_aset : (Instr.aset index value).WellFormed ↔ fitsOff index ∧ fitsVal value := by
  simp [Instr.WellFormed, Instr.wellFormed]

theorem exec_aget_of_ge (hf : s.flt = false) (h : s.numel.toNat ≤ index) :
    exec (.aget index) s = .next (s.haltedBy 5 0x0A (BitVec.ofNat 32 index)) := by
  rw [exec, execAget, State.unlessHalted_of_running hf, if_neg (Nat.not_lt.2 h)]
  rfl

theorem exec_aget_of_lt (hf : s.flt = false) (h : index < s.numel.toNat) :
    exec (.aget index) s = s.answerValue (s.readBlock (elementOffset s.taur.toNat index) s.taur.toNat) := by
  rw [exec, execAget, State.unlessHalted_of_running hf, if_pos h]

/-- The element's block, its offset written out as R100 has it, is legal and in range (R109). -/
theorem State.Inv.element_block (hs : s.Inv) (h : index < s.numel.toNat) :
    legalLen s.params.width s.taur.toNat ∧ index * s.taur.toNat + s.taur.toNat ≤ s.bitCount :=
  hs.element_in_range h

/-- AGET in range is GETBLOCK of the element's bits (R111). -/
theorem exec_aget_eq_getblock (hs : s.Inv) (hf : s.flt = false) (h : index < s.numel.toNat) :
    exec (.aget index) s = exec (.getblock (index * s.taur.toNat) s.taur.toNat) s := by
  obtain ⟨hl, hr⟩ := hs.element_block h
  rw [exec_getblock_of_le hf hl hr, exec_aget_of_lt hf h, elementOffset]

/-- ASET in range is SETBLOCK of the element's bits (R111). -/
theorem exec_aset_eq_setblock (hs : s.Inv) (hf : s.flt = false) (h : index < s.numel.toNat) :
    exec (.aset index value) s = exec (.setblock (index * s.taur.toNat) s.taur.toNat value) s := by
  obtain ⟨hl, hr⟩ := hs.element_block h
  rw [exec_setblock_of_le hf hl hr, exec_aset_of_lt hf h, elementOffset]

/-- AGET in range answers the element's block of `Bits(BUF)` (R104). -/
theorem exec_aget_eq_element (hs : s.Inv) (hf : s.flt = false) (h : index < s.numel.toNat) :
    exec (.aget index) s =
      .next (s.withResponse 0 (BitVec.ofNat 64 (s.bits / 2 ^ (index * s.taur.toNat) % 2 ^ s.taur.toNat))) := by
  obtain ⟨hl, hr⟩ := hs.element_block h
  exact (exec_aget_eq_getblock hs hf h).trans (exec_getblock_eq_block hf hl hr)

/-- ASET in range writes the element's block, answers OK and changes BUF alone (R105). -/
theorem exec_aset_blockWritten (value : Nat) (hs : s.Inv) (hf : s.flt = false) (h : index < s.numel.toNat) :
    ∃ b, exec (.aset index value) s = .next (s.afterWrite b) ∧
      BlockWritten s.params.width s.buf b (index * s.taur.toNat) s.taur.toNat value := by
  obtain ⟨hl, hr⟩ := hs.element_block h
  obtain ⟨b, hexec, -, hwritten⟩ := exec_setblock_blockWritten value hf hl hr
  exact ⟨b, (exec_aset_eq_setblock hs hf h).trans hexec, hwritten⟩

/-- AGET after a writing command answers the element of the buffer it left. -/
theorem exec_aget_afterWrite (hs : s.Inv) (hf : s.flt = false) (hc : exec c s = .next (s.afterWrite b))
    (h : index < s.numel.toNat) :
    exec (.aget index) (s.afterWrite b) = .next ((s.afterWrite b).withResponse 0
      (BitVec.ofNat 64 (State.bits { s with buf := b } / 2 ^ (index * s.taur.toNat) % 2 ^ s.taur.toNat))) :=
  exec_aget_eq_element (s := s.afterWrite b) ((exec_effect hc).keeps_inv hs) hf h

/-- Settles O39: an element in range is a legal block in range, so neither command faults. -/
theorem arrayCommandsAreBlockCommands : Obligations.ArrayCommandsAreBlockCommands := by
  intro index value s hs hf h
  obtain ⟨b, hexec, -⟩ := exec_aset_blockWritten value hs hf h
  exact ⟨exec_aget_eq_getblock hs hf h, exec_aset_eq_setblock hs hf h, ⟨_, exec_aget_eq_element hs hf h, hf⟩,
    ⟨_, hexec, hf⟩⟩

/-- Settles O34: AGET in range is the block read of the element. -/
theorem agetReturnsElement : Obligations.AgetReturnsElement := fun index _ hs hf =>
  ⟨exec_aget_eq_element hs hf, exec_aget_of_ge hf, fun hi => decode_encode (i := .aget index) (decide_eq_true hi)⟩

/-- Settles O35: ASET in range is the block write of the element. -/
theorem asetReplacesElement : Obligations.AsetReplacesElement := by
  intro index value s hs hf
  refine ⟨fun h => ?_, exec_aset_of_ge hf,
    fun hi hv => decode_encode (i := .aset index value) (wellFormed_aset.2 ⟨hi, hv⟩)⟩
  obtain ⟨b, hexec, hwritten⟩ := exec_aset_blockWritten value hs hf h
  exact ⟨b, hexec, hwritten.bit, hwritten.read⟩

/-- Settles O36: the block written is the value truncated, and AGET reads that block. -/
theorem asetThenAgetTruncates : Obligations.AsetThenAgetTruncates := by
  intro index value s hs hf h
  obtain ⟨b, hexec, hwritten⟩ := exec_aset_blockWritten value hs hf h
  obtain ⟨-, hr⟩ := hs.element_block h
  refine ⟨_, hexec, ?_⟩
  rw [exec_aget_afterWrite hs hf hexec h, hwritten.block_self hr]

/-- Settles O38: another element is a block disjoint from the one written, and the tail lies above every element. -/
theorem elementsAreIndependent : Obligations.ElementsAreIndependent := by
  intro index value s hs hf h
  obtain ⟨b, hexec, hwritten⟩ := exec_aset_blockWritten value hs hf h
  refine ⟨_, hexec, fun j hj hne => ⟨_, exec_aget_eq_element hs hf hj, ?_⟩, fun n hn => ?_⟩
  · obtain ⟨-, hr⟩ := hs.element_block hj
    rw [exec_aget_afterWrite hs hf hexec hj, hwritten.block_of_disjoint hr (elements_disjoint hne)]
  · have habove : index * s.taur.toNat + s.taur.toNat ≤ n := (element_end_le h).trans hn
    exact (hwritten.bit n).trans (if_neg fun hin => Nat.not_lt.2 habove hin.2)

end Sys2Proof.Machine

/-! GETLEN and GETTAU (spec/42_packed_array.md R106, R107). -/

namespace Sys2Proof.Machine

variable {s : State}

theorem exec_getlen_of_running (hf : s.flt = false) :
    exec .getlen s = .next (s.withResponse 0 (s.numel.setWidth 64)) := by
  rw [exec, execGetlen, State.unlessHalted_of_running hf, ← BitVec.ofNat_toNat]
  rfl

theorem exec_gettau_of_running (hf : s.flt = false) :
    exec .gettau s = .next (s.withResponse 0 (s.taur.setWidth 64)) := by
  rw [exec, execGettau, State.unlessHalted_of_running hf, ← BitVec.ofNat_toNat]
  rfl

/-- TAUR is 0 on an empty unit alone: a constructed one has elements of at least one bit (R28). -/
theorem State.Inv.taur_eq_zero_iff (hs : s.Inv) : s.taur = 0 ↔ s.nwords = 0 := by
  refine ⟨fun htaur => ?_, fun hzero => (hs.empty hzero).1⟩
  by_contra hn
  obtain ⟨⟨hpos, -⟩, -⟩ := hs.constructed hn
  simp [htaur] at hpos

/-- TAUR as a response is 0 only when TAUR is. -/
theorem setWidth_taur_eq_zero_iff (x : BitVec 7) : x.setWidth 64 = 0 ↔ x = 0 := by
  bv_omega

/-- Settles O40. -/
theorem getlenReturnsLength : Obligations.GetlenReturnsLength := fun _ hf =>
  ⟨exec_getlen_of_running hf, decode_encode (i := .getlen) rfl⟩

/-- Settles O41: the element width is 0 on an empty unit alone. -/
theorem gettauReturnsWidth : Obligations.GettauReturnsWidth := fun s hf =>
  ⟨exec_gettau_of_running hf, fun hs => (setWidth_taur_eq_zero_iff s.taur).trans hs.taur_eq_zero_iff,
    decode_encode (i := .gettau) rfl⟩

end Sys2Proof.Machine

/-! STATUS (spec/43_system.md R116; spec/60_exceptions.md R126). -/

namespace Sys2Proof

/-- A well-formed command has one packet, its encoding (R65, R67). -/
theorem decode_eq_ok_iff_eq_encode {c : Packet} {i : Instr} (h : i.WellFormed) : decode c = .ok i ↔ c = encode i :=
  ⟨fun hdec => (encode_of_fieldsOf (decode_inv hdec)).symm, fun he => decode_of_encode_eq h he.symm⟩

end Sys2Proof

namespace Sys2Proof.Machine

variable {s : State}

/-- The parts of the status word do not overlap, so it is their sum. -/
theorem State.statusWord_eq_sum (s : State) : s.statusWord =
    s.flt.toNat + 2 ^ 8 * s.cause.toNat + 2 ^ 16 * s.fopc.toNat + 2 ^ 32 * s.foff.toNat := by
  have hflt := s.flt.toNat_lt
  have hcause := s.cause.isLt
  have hfopc := s.fopc.isLt
  rw [State.statusWord, Nat.or_assoc, Nat.or_assoc,
    ← Nat.shiftLeft_add_eq_or_of_lt (a := s.cause.toNat) (by omega),
    ← Nat.shiftLeft_add_eq_or_of_lt (a := s.fopc.toNat) (by omega),
    ← Nat.shiftLeft_add_eq_or_of_lt (a := s.foff.toNat) (by omega)]
  omega

/-- STATUS answers the status word, halted or not (R116). -/
theorem exec_status (s : State) : exec .status s = .next (s.withResponse 0 (BitVec.ofNat 64 s.statusWord)) := rfl

/-- A field of the response to STATUS is that part of the status word. -/
theorem State.extractLsb'_ofNat_statusWord {k n : Nat} {x : BitVec n}
    (h : s.statusWord % 2 ^ 64 / 2 ^ k % 2 ^ n = x.toNat) : (BitVec.ofNat 64 s.statusWord).extractLsb' k n = x := by
  apply BitVec.eq_of_toNat_eq
  rw [BitVec.extractLsb'_toNat, BitVec.toNat_ofNat, Nat.shiftRight_eq_div_pow, h]

/-- The layout of the response to STATUS (R116). -/
theorem State.statusWord_fields (s : State) : let r := BitVec.ofNat 64 s.statusWord
    r.extractLsb' 0 1 = BitVec.ofBool s.flt ∧ r.extractLsb' 1 7 = 0 ∧ r.extractLsb' 8 8 = s.cause ∧
      r.extractLsb' 16 8 = s.fopc ∧ r.extractLsb' 24 8 = 0 ∧ r.extractLsb' 32 32 = s.foff := by
  have hflt := s.flt.toNat_lt
  have hcause := s.cause.isLt
  have hfopc := s.fopc.isLt
  have hfoff := s.foff.isLt
  refine ⟨?_, ?_, ?_, ?_, ?_, ?_⟩
  all_goals
    apply State.extractLsb'_ofNat_statusWord
    simp only [State.statusWord_eq_sum, BitVec.toNat_ofBool, BitVec.ofNat_eq_ofNat, BitVec.toNat_ofNat]
    omega

/-- A legal state that has not faulted has nothing to report (R28 point 4). -/
theorem State.Inv.statusWord_eq_zero (hs : s.Inv) (hf : s.flt = false) : s.statusWord = 0 := by
  obtain ⟨hcause, hfopc, hfoff⟩ := hs.running hf
  simp [State.statusWord, hf, hcause, hfopc, hfoff]

/-- Settles O42: the response is the status word, the one packet is the encoding, and a halted unit answers Halted. -/
theorem statusReturnsFaultRegisters : Obligations.StatusReturnsFaultRegisters := by
  refine ⟨fun s => ?_, fun c => decode_eq_ok_iff_eq_encode rfl, fun i s hf hi => exec_of_halted hf hi⟩
  obtain ⟨hflt, hlow, hcause, hfopc, hmid, hfoff⟩ := s.statusWord_fields
  refine ⟨_, exec_status s, hflt, hlow, hcause, hfopc, hmid, hfoff, fun hs hf => ?_⟩
  rw [hs.statusWord_eq_zero hf]
  rfl

end Sys2Proof.Machine

/-! The commands that change the array registers and BUF (spec/10_state.md R29; spec/43_system.md R117). -/

namespace Sys2Proof.Machine

variable {i : Instr} {s t : State}

/-- TAUR, NUMEL and NWORDS stay as they are under every effect but those of CONSTRUCT and RELEASE. -/
theorem Effect.arrayRegisters_eq_or (h : Effect i s t) :
    (t.taur = s.taur ∧ t.numel = s.numel ∧ t.nwords = s.nwords) ∨ i = .release ∨ ∃ n tau, i = .construct n tau := by
  cases h with
  | halted _ _ ht | value _ _ ht | wrote _ _ _ _ _ ht | faulted _ _ ht => subst ht; exact .inl ⟨rfl, rfl, rfl⟩
  | constructed _ n tau hc => exact .inr (.inr ⟨n, tau, hc⟩)
  | released _ hc => exact .inr (.inl hc)

/-- BUF stays as it is under every effect but those of CONSTRUCT, RELEASE and the four writing commands. -/
theorem Effect.buf_eq_or (h : Effect i s t) :
    t.buf = s.buf ∨ i = .release ∨ (∃ n tau, i = .construct n tau) ∨ i.isWrite = true := by
  cases h with
  | halted _ _ ht | value _ _ ht | faulted _ _ ht => subst ht; exact .inl rfl
  | wrote _ hc => exact .inr (.inr (.inr hc))
  | constructed _ n tau hc => exact .inr (.inr (.inl ⟨n, tau, hc⟩))
  | released _ hc => exact .inr (.inl hc)

/-- Settles O51, by the effect the command has had. -/
theorem registersChangeOnlyByTheirCommands : Obligations.RegistersChangeOnlyByTheirCommands := by
  intro i s t h
  have heffect := exec_effect h
  refine ⟨fun hne => heffect.arrayRegisters_eq_or.resolve_left ?_, heffect.buf_eq_or.resolve_left⟩
  rintro ⟨htaur, hnumel, hnwords⟩
  simp [htaur, hnumel, hnwords] at hne

end Sys2Proof.Machine

/-! What a packet leaves behind: on a halted unit one response and nothing else, on a running one an answer OK or fault
entry with the packet's own OPC and OFF (spec/60_exceptions.md R122, R125, R126). -/

namespace Sys2Proof.Machine

variable {s t : State} {c : Packet} {i : Instr}

/-- From `s` to `t` one response OK was added and FLT stayed as it was. -/
def State.AnsweredOk (s t : State) : Prop := t.flt = s.flt ∧ ∃ res, t.responses = s.responses ++ [⟨codeOk, res⟩]

theorem Cause.code_ne_zero (k : Cause) : k.code ≠ 0 := by
  cases k <;> decide

/-- A command run by a running unit answers OK or takes a fault, which records its opcode and OFF operand. -/
theorem Effect.ok_or_faulted (h : Effect i s t) (hf : s.flt = false) :
    s.AnsweredOk t ∨ ∃ k : Cause, t = s.haltedBy k.code i.opcode (BitVec.ofNat 32 (offOperand i)) := by
  cases h with
  | halted hflt => simp [hf] at hflt
  | value _ _ ht | wrote _ _ _ _ _ ht | constructed _ _ _ _ _ _ ht | released _ _ ht =>
    subst ht
    exact .inl ⟨rfl, _, rfl⟩
  | faulted _ k ht => exact .inr ⟨k, ht⟩

/-- A command on a halted unit adds one response, OK or Halted, and changes nothing else. -/
theorem Effect.of_halted (h : Effect i s t) (hf : s.flt = true) :
    ∃ code res, (code = codeOk ∨ code = codeHalted) ∧ t = s.withResponse code res := by
  cases h with
  | halted _ _ ht => exact ⟨_, _, .inr rfl, ht⟩
  | value _ res ht => exact ⟨_, res, .inl rfl, ht⟩
  | wrote hflt | constructed hflt | released hflt | faulted hflt => simp [hf] at hflt

/-- A packet sent to a running unit is answered OK or takes a fault, which records its OPC and OFF bits (R122). -/
theorem runPacket_ok_or_faulted (h : runPacket c s = .next t) (hf : s.flt = false) :
    s.AnsweredOk t ∨ ∃ k : Cause, t = s.haltedBy k.code c.opc c.off := by
  rcases runPacket_cases h with ⟨i, hdec, heffect⟩ | ⟨hflt, -⟩ | ⟨-, ht⟩
  · rw [← Packet.opc_of_decode hdec, ← Packet.off_of_decode hdec]
    exact heffect.ok_or_faulted hf
  · simp [hf] at hflt
  · exact .inr ⟨_, ht⟩

/-- A packet sent to a halted unit adds one response, OK or Halted, and changes nothing else (R126). -/
theorem runPacket_of_halted (h : runPacket c s = .next t) (hf : s.flt = true) :
    ∃ code res, (code = codeOk ∨ code = codeHalted) ∧ t = s.withResponse code res := by
  rcases runPacket_cases h with ⟨i, -, heffect⟩ | ⟨-, ht⟩ | ⟨hflt, -⟩
  · exact heffect.of_halted hf
  · exact ⟨_, _, .inr rfl, ht⟩
  · simp [hf] at hflt

end Sys2Proof.Machine

/-! Every step keeps: a halted unit has reported its fault (spec/60_exceptions.md R125 to R127;
spec/70_reset_and_hazards.md R151). -/

namespace Sys2Proof.Machine

variable {s t : State} {c : Packet} {new : List Response}

/-- From `s` to `t` the responses `new` were added, and FLT goes together with their codes. -/
structure Reported (s t : State) (new : List Response) : Prop where
  appended : t.responses = s.responses ++ new
  running : s.flt = false → (t.flt = true ↔ ∃ r ∈ new, r.code ≠ 0)
  halted : s.flt = true → (∀ r ∈ new, r.code = 0 ∨ r.code = 8) ∧ (t.flt = false → new = [])

/-- Where nothing is added and FLT does not rise, there is nothing to report. -/
theorem Reported.nil (hresp : t.responses = s.responses) (hflt : t.flt = true → s.flt = true) : Reported s t [] where
  appended := by rw [hresp, List.append_nil]
  running hf := by simpa [hf] using hflt
  halted _ := by simp

/-- A packet adds one response, with a CODE other than 0 when it halts a running unit. -/
theorem Reported.of_runPacket (h : runPacket c s = .next t) : ∃ new, Reported s t new := by
  cases hf : s.flt with
  | true =>
    obtain ⟨code, res, hcode, rfl⟩ := runPacket_of_halted h hf
    exact ⟨[⟨code, res⟩], rfl, by simp [hf],
      fun _ => ⟨List.forall_mem_singleton.2 hcode, fun hrun => absurd (hf.symm.trans hrun) (by decide)⟩⟩
  | false =>
    rcases runPacket_ok_or_faulted h hf with ⟨hflt, res, hresp⟩ | ⟨k, rfl⟩
    · exact ⟨_, hresp, by simp [hflt, hf, codeOk], by simp [hf]⟩
    · exact ⟨[⟨k.code, 0⟩], rfl, fun _ => iff_of_true rfl ⟨_, List.mem_singleton_self _, k.code_ne_zero⟩,
        by simp [hf]⟩

/-- A step adds responses only by the packet it takes; waiting and the reset input add none. -/
theorem Reported.of_step (h : step s = .next t) : ∃ new, Reported s t new := by
  rcases step_cases h with ⟨-, rfl⟩ | ⟨c, rest, -, hrun⟩ | ⟨rest, -, rfl⟩
  · exact ⟨[], .nil rfl id⟩
  · obtain ⟨new, happended, hrunning, hhalted⟩ := Reported.of_runPacket hrun
    exact ⟨new, happended, hrunning, hhalted⟩
  · exact ⟨[], .nil rfl fun hflt => by simp at hflt⟩

/-- The fault reported before stays among the responses, and one taken now is among those added. -/
theorem Reported.reportsFault (h : Reported s t new) (hs : s.ReportsFault) : t.ReportsFault := by
  intro ht
  rw [h.appended]
  cases hf : s.flt with
  | true =>
    obtain ⟨r, hr, hcode⟩ := hs hf
    exact ⟨r, List.mem_append_left _ hr, hcode⟩
  | false =>
    obtain ⟨r, hr, hcode⟩ := (h.running hf).1 ht
    exact ⟨r, List.mem_append_right _ hr, hcode⟩

/-- Settles O55, by the responses that the step adds: none, or the one to its packet. -/
theorem stepReportsFaults : Obligations.StepReportsFaults := by
  intro s t hs h
  obtain ⟨new, hnew⟩ := Reported.of_step h
  exact ⟨hnew.reportsFault hs, new, hnew.appended, hnew.running, hnew.halted⟩

end Sys2Proof.Machine

/-! The prologue of every command and the order of the checks (spec/60_exceptions.md R123, R126). -/

namespace Sys2Proof.Machine

variable {s : State} {c : Packet}

/-- A halted unit answers Halted to every packet that is not STATUS. -/
theorem runPacket_of_halted_of_ne_status (hf : s.flt = true) (hdec : decode c ≠ .ok .status) :
    runPacket c s = .next (s.withResponse 8 0) := by
  cases hc : decode c with
  | ok i => rw [runPacket_of_decode hc, exec_of_halted hf fun hi => hdec (hi ▸ hc)]
  | error e => rw [runPacket_of_error hc, State.illegalPacket_of_halted hf]

/-- Settles O11, by what the packet decodes to. -/
theorem prologueOfEveryCommand : Obligations.PrologueOfEveryCommand := by
  intro c rest s hin
  rw [step_of_command hin]
  refine ⟨fun _ hdec => runPacket_of_decode hdec _, fun hf hdec => runPacket_of_halted_of_ne_status hf hdec,
    fun _ i hdec => runPacket_of_decode hdec _, fun hf e hdec => ?_⟩
  rw [runPacket_of_error hdec]
  exact State.illegalPacket_of_running hf

/-- Settles O15: the prologue checks Halted, then the decoding; a command then checks its operands, then its range. -/
theorem checksInFixedOrder : Obligations.ChecksInFixedOrder := by
  refine ⟨fun c rest s hf hin hdec => ?_, fun c rest e s hf hin hdec => ?_, fun i len value s hf hl => ?_,
    fun i len value s hf hpos hle hr => ?_, fun n tau s hf hpos hle => exec_construct_of_gt hf ⟨hpos, hle⟩,
    fun i s hf h => ?_, fun index value s hf h => ⟨exec_aget_of_ge hf h, exec_aset_of_ge hf h⟩⟩
  · obtain ⟨-, hhalted, -, -⟩ := prologueOfEveryCommand c rest s hin
    exact hhalted hf hdec
  · obtain ⟨-, -, -, hillegal⟩ := prologueOfEveryCommand c rest s hin
    exact hillegal hf e hdec
  · exact ⟨exec_getblock_of_not_legalLen hf hl, exec_setblock_of_not_legalLen hf hl,
      exec_construct_of_not_legalLen hf hl⟩
  · exact ⟨exec_getblock_of_gt hf ⟨hpos, hle⟩ hr, exec_setblock_of_gt hf ⟨hpos, hle⟩ hr⟩
  · exact ⟨exec_setbit_of_ge hf h, exec_resetbit_of_ge hf h, exec_testbit_of_ge hf h⟩

end Sys2Proof.Machine

/-! The halted state: how it is entered, and how it is left (spec/60_exceptions.md R125, R127). -/

namespace Sys2Proof.Machine

/-- Settles O12: a halted unit only adds a response to a packet, and the reset input zeroes every register. -/
theorem onlyResetLeavesHaltedState : Obligations.OnlyResetLeavesHaltedState := by
  refine ⟨fun s t hf hhead h => ?_, fun rest s _ hin => ⟨_, step_of_reset hin, rfl, rfl, rfl, rfl, rfl⟩⟩
  rcases step_cases h with ⟨-, rfl⟩ | ⟨c, rest, -, hrun⟩ | ⟨rest, hin, -⟩
  · rfl
  · obtain ⟨code, res, -, rfl⟩ := runPacket_of_halted hrun hf
    rfl
  · simp [hin] at hhead

/-- Settles O14: an answer OK does not halt the unit, so it took the fault; a halted unit only adds a response. -/
theorem faultEntryRecordsThePacket : Obligations.FaultEntryRecordsThePacket := by
  refine ⟨fun c rest s t hf hin h ht => ?_, fun c rest s t hf hin h => ?_⟩
  · rw [step_of_command hin] at h
    rcases runPacket_ok_or_faulted h hf with ⟨hflt, -⟩ | ⟨k, rfl⟩
    · exact absurd (ht.symm.trans (hflt.trans hf)) (by decide)
    · obtain ⟨hpos, hle⟩ := k.code_range
      exact ⟨hpos, hle, rfl⟩
  · rw [step_of_command hin] at h
    obtain ⟨code, res, -, rfl⟩ := runPacket_of_halted h hf
    exact ⟨hf, rfl, rfl, rfl, rfl, rfl, rfl, rfl⟩

end Sys2Proof.Machine

/-! The contract decides the code (spec/60_exceptions.md R129; spec/70_reset_and_hazards.md R145). -/

namespace Sys2Proof.Machine

variable {s : State} {i : Instr}

/-- On a legal running unit a command that keeps the contract and fits the capacity answers OK. -/
theorem exec_answersOk_of_keepsContract (hs : s.Inv) (hf : s.flt = false) (hk : i.keepsContract s) :
    ∃ t, exec i s = .next t ∧ s.AnsweredOk t := by
  cases i with
  | setbit i =>
    obtain ⟨b, hexec, -⟩ := exec_setbit_bitReplaced hf hk
    exact ⟨_, hexec, rfl, _, rfl⟩
  | resetbit i =>
    obtain ⟨b, hexec, -⟩ := exec_resetbit_bitReplaced hf hk
    exact ⟨_, hexec, rfl, _, rfl⟩
  | testbit i => exact ⟨_, exec_testbit_of_lt hf hk, rfl, _, rfl⟩
  | getblock i len =>
    obtain ⟨hl, hr⟩ := hk
    exact ⟨_, exec_getblock_eq_block hf hl hr, rfl, _, rfl⟩
  | setblock i len value =>
    obtain ⟨hl, hr⟩ := hk
    obtain ⟨b, hexec, -⟩ := exec_setblock_blockWritten value hf hl hr
    exact ⟨_, hexec, rfl, _, rfl⟩
  | construct n tau =>
    obtain ⟨hl, hcap⟩ := hk
    exact ⟨_, exec_construct_of_fits hf hl hcap, rfl, _, rfl⟩
  | release => exact ⟨_, exec_release_of_running hf, rfl, _, rfl⟩
  | aget index => exact ⟨_, exec_aget_eq_element hs hf hk, rfl, _, rfl⟩
  | aset index value =>
    obtain ⟨b, hexec, -⟩ := exec_aset_blockWritten value hs hf hk
    exact ⟨_, hexec, rfl, _, rfl⟩
  | getlen => exact ⟨_, exec_getlen_of_running hf, rfl, _, rfl⟩
  | gettau => exact ⟨_, exec_gettau_of_running hf, rfl, _, rfl⟩
  | status => exact ⟨_, exec_status s, rfl, _, rfl⟩

/-- On a running unit a command that breaks the contract or exceeds the capacity takes a fault. -/
theorem exec_faults_of_not_keepsContract (hf : s.flt = false) (hk : ¬ i.keepsContract s) :
    ∃ (k : Cause) (opc : BitVec 8) (off : BitVec 32), exec i s = .next (s.haltedBy k.code opc off) := by
  cases i with
  | setbit i => exact ⟨.bitRange, _, _, exec_setbit_of_ge hf (Nat.le_of_not_lt hk)⟩
  | resetbit i => exact ⟨.bitRange, _, _, exec_resetbit_of_ge hf (Nat.le_of_not_lt hk)⟩
  | testbit i => exact ⟨.bitRange, _, _, exec_testbit_of_ge hf (Nat.le_of_not_lt hk)⟩
  | getblock i len =>
    by_cases hl : legalLen s.params.width len
    · exact ⟨.blockRange, _, _, exec_getblock_of_gt hf hl (Nat.lt_of_not_le fun hr => hk ⟨hl, hr⟩)⟩
    · exact ⟨.badLength, _, _, exec_getblock_of_not_legalLen hf hl⟩
  | setblock i len value =>
    by_cases hl : legalLen s.params.width len
    · exact ⟨.blockRange, _, _, exec_setblock_of_gt hf hl (Nat.lt_of_not_le fun hr => hk ⟨hl, hr⟩)⟩
    · exact ⟨.badLength, _, _, exec_setblock_of_not_legalLen hf hl⟩
  | construct n tau =>
    by_cases hl : legalLen s.params.width tau
    · exact ⟨.capacity, _, _, exec_construct_of_gt hf hl (Nat.lt_of_not_le fun hcap => hk ⟨hl, hcap⟩)⟩
    · exact ⟨.badTau, _, _, exec_construct_of_not_legalLen hf hl⟩
  | aget index => exact ⟨.indexRange, _, _, exec_aget_of_ge hf (Nat.le_of_not_lt hk)⟩
  | aset index value => exact ⟨.indexRange, _, _, exec_aset_of_ge hf (Nat.le_of_not_lt hk)⟩
  | release | getlen | gettau | status => exact absurd trivial hk

/-- Settles O50: a command that keeps the contract answers OK and leaves the unit running, any other takes a fault. -/
theorem contractDecidesTheCode : Obligations.ContractDecidesTheCode := by
  intro i s hs hf
  by_cases hk : i.keepsContract s
  · obtain ⟨t, hexec, hflt, res, hresp⟩ := exec_answersOk_of_keepsContract hs hf hk
    exact ⟨t, _, hexec, hresp, iff_of_true hk rfl, by simp [hflt, hf, codeOk]⟩
  · obtain ⟨k, opc, off, hexec⟩ := exec_faults_of_not_keepsContract hf hk
    exact ⟨_, ⟨k.code, 0⟩, hexec, rfl, iff_of_false hk k.code_ne_zero, iff_of_true rfl k.code_ne_zero⟩

end Sys2Proof.Machine

/-! One event of the host: none, and the reset input (spec/70_reset_and_hazards.md R140, R149). -/

namespace Sys2Proof.Machine

/-- Settles O8. -/
theorem stepWaitsWithNothingPending : Obligations.StepWaitsWithNothingPending := fun _ hin =>
  step_of_no_event hin

/-- Settles O9: the next state is the reset state with the ports of the host, and with NWORDS 0 no word is accessible. -/
theorem resetInputEmptiesUnit : Obligations.ResetInputEmptiesUnit := fun _ _ hin =>
  ⟨_, step_of_reset hin, rfl, rfl, rfl, rfl, rfl, rfl, rfl, rfl, rfl, rfl, State.memRead_ne_ok_of_nwords_zero rfl,
    State.memWrite_ne_ok_of_nwords_zero rfl⟩

end Sys2Proof.Machine

/-! Runs of many steps: a legal unit takes every event and answers every packet (spec/60_exceptions.md R126;
spec/70_reset_and_hazards.md R149, R151; log 15). -/

namespace Sys2Proof.Machine

variable {s t u : State} {c : Packet} {j k : Nat}

/-- A run takes its first step, then goes on from the state that leaves, for any machine. -/
theorem run_succ {M : Host.Core} {s t : M.State} (h : M.step s = .next t) (k : Nat) : M.run (k + 1) s = M.run k t := by
  rw [Host.Core.run, h]

/-- A run that goes on for `k + 1` steps takes a first step, from where it goes on for `k`. -/
theorem exists_step_of_run_succ {M : Host.Core} {s u : M.State} (h : M.run (k + 1) s = .next u) :
    ∃ t, M.step s = .next t ∧ M.run k t = .next u := by
  rw [Host.Core.run] at h
  split at h
  · next t hstep => exact ⟨t, hstep, h⟩
  · cases h
  · cases h

/-- From `s` to `t` the first `k` events, or all if there are fewer, were taken off the port and each packet among them was
answered once (R149, R151). -/
structure Advanced (k : Nat) (s t : State) : Prop where
  params : t.params = s.params
  input : t.input = s.input.drop k
  answered : ∃ new, t.responses = s.responses ++ new ∧
    new.length = (s.input.take k).countP HostEvent.isCommand

theorem Advanced.zero (s : State) : Advanced 0 s s where
  params := rfl
  input := rfl
  answered := ⟨[], (List.append_nil _).symm, rfl⟩

/-- What is taken and answered adds up. -/
theorem Advanced.trans (h : Advanced j s t) (h' : Advanced k t u) : Advanced (j + k) s u where
  params := h'.params.trans h.params
  input := by rw [h'.input, h.input, List.drop_drop]
  answered := by
    obtain ⟨new, hnew, hlen⟩ := h.answered
    obtain ⟨new', hnew', hlen'⟩ := h'.answered
    refine ⟨new ++ new', by rw [hnew', hnew, List.append_assoc], ?_⟩
    rw [List.length_append, hlen, hlen', h.input, List.take_add, List.countP_append]

/-- On a legal state every packet completes, a command by its rule and an illegal packet by its answer (R65, R126). -/
theorem runPacket_completes_of_inv (hs : s.Inv) (c : Packet) : ∃ t, runPacket c s = .next t := by
  cases hdec : decode c with
  | ok i =>
    rw [runPacket_of_decode hdec]
    exact exec_completes_of_inv hs i
  | error e =>
    rw [runPacket_of_error hdec]
    exact State.unlessHalted_completes ⟨_, rfl⟩

/-- A packet is answered once, whatever it holds, and leaves the pending events as they were (R63). -/
theorem runPacket_ports (h : runPacket c s = .next t) :
    ∃ r, t.responses = s.responses ++ [r] ∧ t.input = s.input := by
  rcases runPacket_cases h with ⟨i, -, heffect⟩ | ⟨-, rfl⟩ | ⟨-, rfl⟩
  · exact heffect.ports
  · exact ⟨_, rfl, rfl⟩
  · exact ⟨_, rfl, rfl⟩

/-- A step takes the next event, if there is one, and answers it if it is a packet. -/
theorem Advanced.of_step (h : step s = .next t) : Advanced 1 s t := by
  have hparams := parametersNeverChange s t h
  rcases step_cases h with ⟨hin, rfl⟩ | ⟨c, rest, hin, hrun⟩ | ⟨rest, hin, rfl⟩
  · exact ⟨hparams, by simp [hin], [], by simp, by simp [hin]⟩
  · obtain ⟨r, hresp, hinput⟩ := runPacket_ports hrun
    exact ⟨hparams, by simp [hin, hinput], [r], hresp, by simp [hin, HostEvent.isCommand]⟩
  · exact ⟨hparams, by simp [hin], [], by simp, by simp [hin, HostEvent.isCommand]⟩

/-- A step from a legal state completes: the unit waits, its packet completes, or the reset input is taken. -/
theorem step_completes_of_inv (hs : s.Inv) : ∃ t, step s = .next t := by
  cases hin : s.input with
  | nil => exact ⟨s, step_of_no_event hin⟩
  | cons e rest =>
    cases e with
    | command c =>
      rw [step_of_command hin]
      exact runPacket_completes_of_inv (hs.withPorts rest s.responses) c
    | reset => exact ⟨_, step_of_reset hin⟩

/-- A run from a legal state goes on for any number of steps: each ends in a legal state again. -/
theorem run_advances (k : Nat) (hs : s.Inv) : ∃ t, core.run k s = .next t ∧ Advanced k s t := by
  induction k generalizing s with
  | zero => exact ⟨s, rfl, .zero s⟩
  | succ k ih =>
    obtain ⟨t, hstep⟩ := step_completes_of_inv hs
    obtain ⟨u, hrun, hadv⟩ := ih (stepKeepsInvariants s t hs hstep)
    exact ⟨u, (run_succ hstep k).trans hrun, Nat.add_comm 1 k ▸ (Advanced.of_step hstep).trans hadv⟩

/-- Settles O47, by induction on the number of steps. -/
theorem runsNeverStop : Obligations.RunsNeverStop := by
  intro k s hs
  obtain ⟨t, hrun, hparams, hinput, new, hresp, hlen⟩ := run_advances k hs
  exact ⟨t, new, hrun, hparams, hinput, hresp, hlen⟩

end Sys2Proof.Machine

/-! A run went wrong by its responses exactly when FLT was 1 at some point of it (spec/70_reset_and_hazards.md R151). -/

namespace Sys2Proof.Machine

variable {s t : State} {k : Nat}

/-- FLT is 1 at some point of the run of `k` steps from `s`. -/
def HaltsWithin (k : Nat) (s : State) : Prop := ∃ j u, j ≤ k ∧ core.run j s = .next u ∧ u.flt = true

theorem haltsWithin_of_halted (hf : s.flt = true) (k : Nat) : HaltsWithin k s := ⟨0, s, Nat.zero_le k, rfl, hf⟩

theorem not_haltsWithin_zero (hf : s.flt = false) : ¬ HaltsWithin 0 s := by
  rintro ⟨j, u, hj, hrun, hu⟩
  obtain rfl := Nat.le_zero.1 hj
  cases hrun
  exact absurd (hf.symm.trans hu) (by decide)

/-- A running unit halts within `k + 1` steps when it does so within the `k` steps after the first. -/
theorem haltsWithin_succ (hf : s.flt = false) (h : step s = .next t) : HaltsWithin (k + 1) s ↔ HaltsWithin k t := by
  constructor
  · rintro ⟨j, u, hj, hrun, hu⟩
    cases j with
    | zero => exact absurd ⟨0, u, le_rfl, hrun, hu⟩ (not_haltsWithin_zero hf)
    | succ j => exact ⟨j, u, Nat.le_of_succ_le_succ hj, (run_succ h j).symm.trans hrun, hu⟩
  · rintro ⟨j, u, hj, hrun, hu⟩
    exact ⟨j + 1, u, Nat.succ_le_succ hj, (run_succ h j).trans hrun, hu⟩

/-- A response once delivered is never taken back. -/
theorem responses_subset_of_run (h : core.run k s = .next t) : s.responses ⊆ t.responses := by
  induction k generalizing s with
  | zero =>
    cases h
    exact List.Subset.refl _
  | succ k ih =>
    obtain ⟨u, hstep, hrun⟩ := exists_step_of_run_succ h
    obtain ⟨new, hnew⟩ := Reported.of_step hstep
    refine List.Subset.trans ?_ (ih hrun)
    rw [hnew.appended]
    exact List.subset_append_left _ _

/-- A step of a healthy unit that does not halt it is answered OK, if at all. -/
theorem State.Healthy.of_step (hs : s.Healthy) (h : step s = .next t) (ht : t.flt = false) : t.Healthy := by
  obtain ⟨new, hnew⟩ := Reported.of_step h
  have hok : ¬ ∃ r ∈ new, r.code ≠ 0 := by
    rw [← hnew.running hs.notHalted, ht]
    decide
  refine ⟨ht, fun r hr => ?_⟩
  rw [hnew.appended, List.mem_append] at hr
  exact hr.elim (hs.allOk r) fun hmem => by_contra fun hcode => hok ⟨r, hmem, hcode⟩

/-- A step that halts a healthy unit delivers a CODE other than 0. -/
theorem State.Healthy.reportsFault_of_step (hs : s.Healthy) (h : step s = .next t) : t.ReportsFault := by
  obtain ⟨new, hnew⟩ := Reported.of_step h
  exact hnew.reportsFault fun hf => absurd (hs.notHalted.symm.trans hf) (by decide)

/-- Settles O54, by induction on the number of steps: the first step halts the unit and says so for good, or leaves it
healthy. -/
theorem runWentWrongIffHalted : Obligations.RunWentWrongIffHalted := by
  intro k s t hs h
  change _ ↔ HaltsWithin k s
  induction k generalizing s with
  | zero =>
    cases h
    refine iff_of_false ?_ (not_haltsWithin_zero hs.notHalted)
    rintro ⟨r, hr, hcode⟩
    exact hcode (hs.allOk r hr)
  | succ k ih =>
    obtain ⟨u, hstep, hrun⟩ := exists_step_of_run_succ h
    rw [haltsWithin_succ hs.notHalted hstep]
    cases hu : u.flt with
    | true =>
      obtain ⟨r, hr, hcode⟩ := hs.reportsFault_of_step hstep hu
      exact iff_of_true ⟨r, responses_subset_of_run hrun hr, hcode⟩ (haltsWithin_of_halted hu k)
    | false => exact ih u (hs.of_step hstep hu) hrun

end Sys2Proof.Machine

/-! The empty unit, and so the unit after reset, as seen through commands (spec/70_reset_and_hazards.md R142). -/

namespace Sys2Proof.Machine

variable {s : State}

theorem State.bitCount_of_nwords_zero (hz : s.nwords = 0) : s.bitCount = 0 := by
  simp [State.bitCount, hz]

/-- A legal empty unit has nothing listed (R23, R47). -/
theorem State.Inv.buf_eq_nil (hs : s.Inv) (hz : s.nwords = 0) : s.buf = [] :=
  List.eq_nil_iff_forall_not_mem.2 fun x hx => by simpa [hz] using hs.extent x hx

/-- A legal empty unit is already what RELEASE makes of it. -/
theorem State.Inv.released_eq_self (hs : s.Inv) (hz : s.nwords = 0) :
    { s with nwords := 0, taur := 0, numel := 0, buf := [] } = s := by
  obtain ⟨htaur, hnumel⟩ := hs.empty hz
  have hbuf := hs.buf_eq_nil hz
  cases s
  cases hz
  cases htaur
  cases hnumel
  cases hbuf
  rfl

/-- RELEASE on a legal empty unit answers OK and changes nothing. -/
theorem exec_release_of_empty (hs : s.Inv) (hf : s.flt = false) (hz : s.nwords = 0) :
    exec .release s = .next (s.withResponse 0 0) := by
  rw [exec_release_of_running hf, hs.released_eq_self hz]

/-- STATUS on a legal running unit answers 0. -/
theorem exec_status_of_running (hs : s.Inv) (hf : s.flt = false) : exec .status s = .next (s.withResponse 0 0) := by
  rw [exec_status, hs.statusWord_eq_zero hf]
  rfl

/-- Settles O43: after reset the unit is legal, running and empty, so that no bit, block or element is in range. -/
theorem resetSeenThroughCommands : Obligations.ResetSeenThroughCommands := by
  intro p s hp hreset
  have hs : s.Inv := by
    rw [hreset]
    exact (State.Inv.resetOf hp).withPorts _ _
  have hf : s.flt = false := congrArg State.flt hreset
  have hz : s.nwords = 0 := congrArg State.nwords hreset
  obtain ⟨htaur, hnumel⟩ := hs.empty hz
  obtain rfl : s.params = p := congrArg State.params hreset
  have hbit (i : Nat) : s.bitCount ≤ i := (State.bitCount_of_nwords_zero hz).trans_le (Nat.zero_le i)
  have helem (index : Nat) : s.numel.toNat ≤ index := by simp [hnumel]
  refine ⟨?_, ?_, exec_status_of_running hs hf, exec_release_of_empty hs hf hz,
    fun i => ⟨exec_setbit_of_ge hf (hbit i), exec_resetbit_of_ge hf (hbit i), exec_testbit_of_ge hf (hbit i)⟩,
    fun i len value hpos hle => ?_,
    fun index value => ⟨exec_aget_of_ge hf (helem index), exec_aset_of_ge hf (helem index)⟩,
    fun n tau hpos hle hcap => ⟨_, exec_construct_of_fits hf ⟨hpos, hle⟩ hcap, hf, rfl⟩⟩
  · rw [exec_getlen_of_running hf, hnumel]
    rfl
  · rw [exec_gettau_of_running hf, htaur]
    rfl
  · have hr : s.bitCount < i + len := (hbit i).trans_lt (Nat.lt_add_of_pos_right hpos)
    exact ⟨exec_getblock_of_gt hf ⟨hpos, hle⟩ hr, exec_setblock_of_gt hf ⟨hpos, hle⟩ hr⟩

end Sys2Proof.Machine
